-- ==== Sys2Proof/Word.lean ====
section
/-! DEFINITION. The word types of the machine and the plainest operations on them (spec 00_scope.md R9, R10). -/

namespace Sys2Proof

/-- One byte: a general register, a timer, a memory cell (10_state.md R20). -/
abbrev Byte := BitVec 8

/-- A 16-bit value: `I`, `PC`, a call-stack entry, an instruction word (10_state.md R20, 30_encoding.md R80). -/
abbrev Word := BitVec 16

/-- A 12-bit address field `nnn` of an instruction word (00_scope.md R10). -/
abbrev Addr12 := BitVec 12

/-- The index of a general register, 0 to 15 (10_state.md R21). -/
abbrev Reg := Fin 16

/-- `VF`, the flag register (10_state.md R22). -/
abbrev regF : Reg := 15

end Sys2Proof
end

