-- ==== Sys2Proof/Syntax.lean ====
section
/-! DEFINITION. The instructions: one constructor per row of spec/opcode_table.json, in the table's order (spec
30_encoding.md R84). -/

namespace Sys2Proof

/-- The 35 operations of R84 with their operands (R82, R83): `x` and `y` are register indices, `kk` an 8-bit immediate,
`nnn` a 12-bit address, `n` a 4-bit count. -/
inductive Instr where
  /-- `0NNN` SYS nnn (R103) -/
  | sys (nnn : Addr12)
  /-- `00E0` CLS (R191) -/
  | cls
  /-- `00EE` RET (R104) -/
  | ret
  /-- `1NNN` JP nnn (R105) -/
  | jp (nnn : Addr12)
  /-- `2NNN` CALL nnn (R106) -/
  | call (nnn : Addr12)
  /-- `3XNN` SE Vx, kk (R107) -/
  | seImm (x : Reg) (kk : Byte)
  /-- `4XNN` SNE Vx, kk (R108) -/
  | sneImm (x : Reg) (kk : Byte)
  /-- `5XY0` SE Vx, Vy (R109) -/
  | seReg (x y : Reg)
  /-- `6XNN` LD Vx, kk (R132) -/
  | ldImm (x : Reg) (kk : Byte)
  /-- `7XNN` ADD Vx, kk (R133) -/
  | addImm (x : Reg) (kk : Byte)
  /-- `8XY0` LD Vx, Vy (R134) -/
  | ldReg (x y : Reg)
  /-- `8XY1` OR Vx, Vy (R135) -/
  | orReg (x y : Reg)
  /-- `8XY2` AND Vx, Vy (R136) -/
  | andReg (x y : Reg)
  /-- `8XY3` XOR Vx, Vy (R137) -/
  | xorReg (x y : Reg)
  /-- `8XY4` ADD Vx, Vy (R138) -/
  | addReg (x y : Reg)
  /-- `8XY5` SUB Vx, Vy (R139) -/
  | subReg (x y : Reg)
  /-- `8XY6` SHR Vx, Vy (R140) -/
  | shrReg (x y : Reg)
  /-- `8XY7` SUBN Vx, Vy (R141) -/
  | subnReg (x y : Reg)
  /-- `8XYE` SHL Vx, Vy (R142) -/
  | shlReg (x y : Reg)
  /-- `9XY0` SNE Vx, Vy (R110) -/
  | sneReg (x y : Reg)
  /-- `ANNN` LD I, nnn (R160) -/
  | ldI (nnn : Addr12)
  /-- `BNNN` JP V0, nnn (R111) -/
  | jpV0 (nnn : Addr12)
  /-- `CXNN` RND Vx, kk (R143) -/
  | rnd (x : Reg) (kk : Byte)
  /-- `DXYN` DRW Vx, Vy, n (R192) -/
  | drw (x y : Reg) (n : BitVec 4)
  /-- `EX9E` SKP Vx (R197) -/
  | skp (x : Reg)
  /-- `EXA1` SKNP Vx (R198) -/
  | sknp (x : Reg)
  /-- `FX07` LD Vx, DT (R182) -/
  | ldRegDt (x : Reg)
  /-- `FX0A` LD Vx, K (R199) -/
  | ldRegKey (x : Reg)
  /-- `FX15` LD DT, Vx (R183) -/
  | ldDtReg (x : Reg)
  /-- `FX18` LD ST, Vx (R184) -/
  | ldStReg (x : Reg)
  /-- `FX1E` ADD I, Vx (R161) -/
  | addI (x : Reg)
  /-- `FX29` LD F, Vx (R162) -/
  | ldFont (x : Reg)
  /-- `FX33` LD B, Vx (R163) -/
  | ldBcd (x : Reg)
  /-- `FX55` LD [I], Vx (R164) -/
  | ldMemReg (x : Reg)
  /-- `FX65` LD Vx, [I] (R165) -/
  | ldRegMem (x : Reg)
  deriving DecidableEq, Repr

end Sys2Proof
end

