-- ==== Sys2Proof/WellFormed.lean ====
section
/-! DEFINITION. Which terms of `Instr` are instructions: the checks an assembler makes (spec 30_encoding.md R83, R86,
R95). Register, immediate and count fields need none: every value of their types is legal (R83). -/

namespace Sys2Proof

/-- "an assembler must refuse `SYS 0x0E0` and `SYS 0x0EE`, because those words decode as CLS and RET" (R95). -/
def sysOperandOk (nnn : Addr12) : Bool :=
  nnn != 0x0E0 && nnn != 0x0EE

/-- The well-formed instructions (R83, R95). -/
def Instr.wellFormed : Instr → Bool
  | .sys nnn => sysOperandOk nnn
  | .cls => true
  | .ret => true
  | .jp _ => true
  | .call _ => true
  | .seImm _ _ => true
  | .sneImm _ _ => true
  | .seReg _ _ => true
  | .ldImm _ _ => true
  | .addImm _ _ => true
  | .ldReg _ _ => true
  | .orReg _ _ => true
  | .andReg _ _ => true
  | .xorReg _ _ => true
  | .addReg _ _ => true
  | .subReg _ _ => true
  | .shrReg _ _ => true
  | .subnReg _ _ => true
  | .shlReg _ _ => true
  | .sneReg _ _ => true
  | .ldI _ => true
  | .jpV0 _ => true
  | .rnd _ _ => true
  | .drw _ _ _ => true
  | .skp _ => true
  | .sknp _ => true
  | .ldRegDt _ => true
  | .ldRegKey _ => true
  | .ldDtReg _ => true
  | .ldStReg _ => true
  | .addI _ => true
  | .ldFont _ => true
  | .ldBcd _ => true
  | .ldMemReg _ => true
  | .ldRegMem _ => true

end Sys2Proof
end

