-- ==== Sys2Proof/Decode.lean ====
section
/-! DEFINITION. The decoder (spec 30_encoding.md R81, R85, R87), total on every word and every byte string, the encoder
(R82, R84, R95), and the opcode table's masks and matches (R84). -/

namespace Sys2Proof

/-! ## Fields of an instruction word (00_scope.md R10, 30_encoding.md R81) -/

/-- The register a 4-bit field names: every value names one (R83). -/
def regOfBits (b : BitVec 4) : Reg := b.toFin

/-- The 4-bit field that names a register. -/
def regBits (r : Reg) : BitVec 4 := BitVec.ofFin r

/-- `op = w[15:12]`. -/
def opField (w : Word) : BitVec 4 := w.extractLsb' 12 4

/-- `x = w[11:8]`, as bits. -/
def xField (w : Word) : BitVec 4 := w.extractLsb' 8 4

/-- `y = w[7:4]`, as bits. -/
def yField (w : Word) : BitVec 4 := w.extractLsb' 4 4

/-- `n = w[3:0]`. -/
def nField (w : Word) : BitVec 4 := w.extractLsb' 0 4

/-- `kk = w[7:0]`. -/
def kkField (w : Word) : Byte := w.extractLsb' 0 8

/-- `nnn = w[11:0]`. -/
def nnnField (w : Word) : Addr12 := w.extractLsb' 0 12

/-! ## Decoding -/

/-- Why bytes are no instruction: the five families of illegal words of R87, and a byte string too short for a word. -/
inductive DecodeError where
  /-- fewer than two bytes: the instruction word is 16 bits (R80) -/
  | truncated
  /-- `5XYn` with `n ≠ 0` (R87) -/
  | illegal5 (w : Word)
  /-- `8XYn` with `n` in 8, 9, A, B, C, D, F (R87) -/
  | illegal8 (w : Word)
  /-- `9XYn` with `n ≠ 0` (R87) -/
  | illegal9 (w : Word)
  /-- `EXkk` with `kk` neither 9E nor A1 (R87) -/
  | illegalE (w : Word)
  /-- `FXkk` with `kk` none of 07, 0A, 15, 18, 1E, 29, 33, 55, 65 (R87) -/
  | illegalF (w : Word)
  deriving DecidableEq, Repr

/-- Family 0: CLS and RET take priority over SYS (R85, R86). -/
def decode0 (w : Word) : Instr :=
  if w = 0x00E0 then .cls
  else if w = 0x00EE then .ret
  else .sys (nnnField w)

/-- Family 8: the function nibble `n` selects the operation on `(x, y)` (R85). -/
def decode8 (w : Word) : Except DecodeError Instr :=
  let x := regOfBits (xField w)
  let y := regOfBits (yField w)
  match (nField w).toNat with
  | 0x0 => .ok (.ldReg x y)
  | 0x1 => .ok (.orReg x y)
  | 0x2 => .ok (.andReg x y)
  | 0x3 => .ok (.xorReg x y)
  | 0x4 => .ok (.addReg x y)
  | 0x5 => .ok (.subReg x y)
  | 0x6 => .ok (.shrReg x y)
  | 0x7 => .ok (.subnReg x y)
  | 0xE => .ok (.shlReg x y)
  | _ => .error (.illegal8 w)

/-- Family E: the function byte `kk` (R85). -/
def decodeE (w : Word) : Except DecodeError Instr :=
  let x := regOfBits (xField w)
  match (kkField w).toNat with
  | 0x9E => .ok (.skp x)
  | 0xA1 => .ok (.sknp x)
  | _ => .error (.illegalE w)

/-- Family F: the function byte `kk` (R85). -/
def decodeF (w : Word) : Except DecodeError Instr :=
  let x := regOfBits (xField w)
  match (kkField w).toNat with
  | 0x07 => .ok (.ldRegDt x)
  | 0x0A => .ok (.ldRegKey x)
  | 0x15 => .ok (.ldDtReg x)
  | 0x18 => .ok (.ldStReg x)
  | 0x1E => .ok (.addI x)
  | 0x29 => .ok (.ldFont x)
  | 0x33 => .ok (.ldBcd x)
  | 0x55 => .ok (.ldMemReg x)
  | 0x65 => .ok (.ldRegMem x)
  | _ => .error (.illegalF w)

/-- The decode function of R85, total on the 65536 words: it reads the word alone. The leading nibble selects the
family; `op` is below 16, so the last arm is family F. -/
def decodeWord (w : Word) : Except DecodeError Instr :=
  let x := regOfBits (xField w)
  let y := regOfBits (yField w)
  match (opField w).toNat with
  | 0x0 => .ok (decode0 w)
  | 0x1 => .ok (.jp (nnnField w))
  | 0x2 => .ok (.call (nnnField w))
  | 0x3 => .ok (.seImm x (kkField w))
  | 0x4 => .ok (.sneImm x (kkField w))
  | 0x5 => if nField w = 0 then .ok (.seReg x y) else .error (.illegal5 w)
  | 0x6 => .ok (.ldImm x (kkField w))
  | 0x7 => .ok (.addImm x (kkField w))
  | 0x8 => decode8 w
  | 0x9 => if nField w = 0 then .ok (.sneReg x y) else .error (.illegal9 w)
  | 0xA => .ok (.ldI (nnnField w))
  | 0xB => .ok (.jpV0 (nnnField w))
  | 0xC => .ok (.rnd x (kkField w))
  | 0xD => .ok (.drw x y (nField w))
  | 0xE => decodeE w
  | _ => decodeF w

/-- The word of two bytes in the order they lie in memory: big-endian (20_memory.md R52). -/
def wordOfBytes (hi lo : Byte) : Word := hi ++ lo

/-- Decoding the front of a byte string: one instruction is two bytes, the high byte first (R80); the rest follows. -/
def decodeBytes : List Byte → Except DecodeError (Instr × List Byte)
  | hi :: lo :: rest =>
    match decodeWord (wordOfBytes hi lo) with
    | .ok i => .ok (i, rest)
    | .error e => .error e
  | _ => .error .truncated

/-! ## Encoding: fill the pattern's fields with the operands (R82, R84, R95) -/

/-- Format A12: `op nnn`. -/
def encodeA12 (op : BitVec 4) (nnn : Addr12) : Word := op ++ nnn

/-- Formats XKK and X: `op x kk` (in format X the byte is the fixed function byte). -/
def encodeXKK (op : BitVec 4) (x : Reg) (kk : Byte) : Word := op ++ regBits x ++ kk

/-- Formats XY and XYN: `op x y n` (in format XY the last nibble is the fixed function nibble). -/
def encodeXYN (op : BitVec 4) (x y : Reg) (n : BitVec 4) : Word := op ++ regBits x ++ regBits y ++ n

/-- The word of an instruction (R84). -/
def encode : Instr → Word
  | .sys nnn => encodeA12 0x0 nnn
  | .cls => 0x00E0
  | .ret => 0x00EE
  | .jp nnn => encodeA12 0x1 nnn
  | .call nnn => encodeA12 0x2 nnn
  | .seImm x kk => encodeXKK 0x3 x kk
  | .sneImm x kk => encodeXKK 0x4 x kk
  | .seReg x y => encodeXYN 0x5 x y 0x0
  | .ldImm x kk => encodeXKK 0x6 x kk
  | .addImm x kk => encodeXKK 0x7 x kk
  | .ldReg x y => encodeXYN 0x8 x y 0x0
  | .orReg x y => encodeXYN 0x8 x y 0x1
  | .andReg x y => encodeXYN 0x8 x y 0x2
  | .xorReg x y => encodeXYN 0x8 x y 0x3
  | .addReg x y => encodeXYN 0x8 x y 0x4
  | .subReg x y => encodeXYN 0x8 x y 0x5
  | .shrReg x y => encodeXYN 0x8 x y 0x6
  | .subnReg x y => encodeXYN 0x8 x y 0x7
  | .shlReg x y => encodeXYN 0x8 x y 0xE
  | .sneReg x y => encodeXYN 0x9 x y 0x0
  | .ldI nnn => encodeA12 0xA nnn
  | .jpV0 nnn => encodeA12 0xB nnn
  | .rnd x kk => encodeXKK 0xC x kk
  | .drw x y n => encodeXYN 0xD x y n
  | .skp x => encodeXKK 0xE x 0x9E
  | .sknp x => encodeXKK 0xE x 0xA1
  | .ldRegDt x => encodeXKK 0xF x 0x07
  | .ldRegKey x => encodeXKK 0xF x 0x0A
  | .ldDtReg x => encodeXKK 0xF x 0x15
  | .ldStReg x => encodeXKK 0xF x 0x18
  | .addI x => encodeXKK 0xF x 0x1E
  | .ldFont x => encodeXKK 0xF x 0x29
  | .ldBcd x => encodeXKK 0xF x 0x33
  | .ldMemReg x => encodeXKK 0xF x 0x55
  | .ldRegMem x => encodeXKK 0xF x 0x65

/-- The bytes of a word as the hardware stores them: the high byte at the lower address (20_memory.md R52). -/
def bytesOfWord (w : Word) : List Byte := [w.extractLsb' 8 8, w.extractLsb' 0 8]

/-! ## The opcode table's patterns (R84, spec/opcode_table.json) -/

/-- One row's pattern: a word `w` matches it when `w &&& mask = pattern`. -/
structure OpcodeRow where
  pattern : Word
  mask    : Word
  deriving DecidableEq, Repr

/-- The row of an instruction. -/
def opcodeRow : Instr → OpcodeRow
  | .sys _ => { pattern := 0x0000, mask := 0xF000 }
  | .cls => { pattern := 0x00E0, mask := 0xFFFF }
  | .ret => { pattern := 0x00EE, mask := 0xFFFF }
  | .jp _ => { pattern := 0x1000, mask := 0xF000 }
  | .call _ => { pattern := 0x2000, mask := 0xF000 }
  | .seImm _ _ => { pattern := 0x3000, mask := 0xF000 }
  | .sneImm _ _ => { pattern := 0x4000, mask := 0xF000 }
  | .seReg _ _ => { pattern := 0x5000, mask := 0xF00F }
  | .ldImm _ _ => { pattern := 0x6000, mask := 0xF000 }
  | .addImm _ _ => { pattern := 0x7000, mask := 0xF000 }
  | .ldReg _ _ => { pattern := 0x8000, mask := 0xF00F }
  | .orReg _ _ => { pattern := 0x8001, mask := 0xF00F }
  | .andReg _ _ => { pattern := 0x8002, mask := 0xF00F }
  | .xorReg _ _ => { pattern := 0x8003, mask := 0xF00F }
  | .addReg _ _ => { pattern := 0x8004, mask := 0xF00F }
  | .subReg _ _ => { pattern := 0x8005, mask := 0xF00F }
  | .shrReg _ _ => { pattern := 0x8006, mask := 0xF00F }
  | .subnReg _ _ => { pattern := 0x8007, mask := 0xF00F }
  | .shlReg _ _ => { pattern := 0x800E, mask := 0xF00F }
  | .sneReg _ _ => { pattern := 0x9000, mask := 0xF00F }
  | .ldI _ => { pattern := 0xA000, mask := 0xF000 }
  | .jpV0 _ => { pattern := 0xB000, mask := 0xF000 }
  | .rnd _ _ => { pattern := 0xC000, mask := 0xF000 }
  | .drw _ _ _ => { pattern := 0xD000, mask := 0xF000 }
  | .skp _ => { pattern := 0xE09E, mask := 0xF0FF }
  | .sknp _ => { pattern := 0xE0A1, mask := 0xF0FF }
  | .ldRegDt _ => { pattern := 0xF007, mask := 0xF0FF }
  | .ldRegKey _ => { pattern := 0xF00A, mask := 0xF0FF }
  | .ldDtReg _ => { pattern := 0xF015, mask := 0xF0FF }
  | .ldStReg _ => { pattern := 0xF018, mask := 0xF0FF }
  | .addI _ => { pattern := 0xF01E, mask := 0xF0FF }
  | .ldFont _ => { pattern := 0xF029, mask := 0xF0FF }
  | .ldBcd _ => { pattern := 0xF033, mask := 0xF0FF }
  | .ldMemReg _ => { pattern := 0xF055, mask := 0xF0FF }
  | .ldRegMem _ => { pattern := 0xF065, mask := 0xF0FF }

/-- `w` matches the row. -/
def OpcodeRow.matchesWord (r : OpcodeRow) (w : Word) : Bool := w &&& r.mask == r.pattern

/-! ## The host's view of the decoder -/

/-- The instruction the decoder reads from an instruction whose bits are `w`, numbered as spec/opcode_table.json numbers
them; bits from `nbits` up are 0. The word is laid out in memory order and given to the byte decoder. -/
def decodeTableWord (nbits w : Nat) : Option Instr :=
  match decodeBytes (bytesOfWord (BitVec.ofNat 16 (w % 2 ^ nbits))) with
  | .ok (i, _) => some i
  | .error _ => none

end Sys2Proof
end

