-- ==== Sys2Proof/Config.lean ====
section
/-! DEFINITION. What an implementation fixes (spec 00_scope.md R7) and the free values of the model.

R7's sizes (16 registers, 16 stack entries, 4096 bytes, 64 by 32 pixels, 16 keys, load address 0x200) are written as
numerals where they are used; each use cites its rule. The parameters that R7 leaves OPEN are here: `SHIFT_SOURCE`
and `DRAW_EDGE` as a record that State carries, `FONT` as an argument of construction (Machine/Construct.lean), whose
default table stands in Machine/Memory.lean. -/

namespace Sys2Proof

/-- `SHIFT_SOURCE`: the source operand of 8XY6 and 8XYE (R7, 41_alu.md R140, 92_eei_decisions.md D8). -/
inductive ShiftSource where
  | vy
  | vx
  deriving DecidableEq, Repr

/-- `DRAW_EDGE`: what DXYN does with a pixel off the surface (R7, 44_display_keypad.md R193, R194, D11). -/
inductive DrawEdge where
  | wrap
  | clip
  deriving DecidableEq, Repr

/-- The open parameters of R7 that an instruction's meaning reads. DESIGN CHOICE (log entry 7): State carries them, so
that a statement about every state holds for both values of each; no step changes them. -/
structure Params where
  shiftSource : ShiftSource
  drawEdge    : DrawEdge
  deriving DecidableEq, Repr

/-- The defaults of R7: this hardware's values. -/
def Params.default : Params := { shiftSource := .vy, drawEdge := .wrap }

/-- FREE VALUE (log entry 5): the key vector of the `n`th cycle where the host has lined up none. Any of the 2^16
vectors (44_display_keypad.md R196, 93_implementation_defined.md U8). It has no body, so nothing can be proved of it. -/
opaque Config.freeKeys : Nat → BitVec 16

/-- FREE VALUE (log entry 5): the random byte of the `n`th cycle where the host has lined up none. Any 8-bit value on
every execution (41_alu.md R143, 93_implementation_defined.md U7). It has no body. -/
opaque Config.freeByte : Nat → Byte

end Sys2Proof
end

