-- ==== Sys2Proof/Machine/State.lean ====
section
/-! DEFINITION. The machine's state as plain data (spec 10_state.md R20, R34 to R36; 60_exceptions.md R222, R250 to R256),
the reasons a step can stop, and the state after reset (10_state.md R39, 70_reset_and_hazards.md R260). -/

namespace Sys2Proof.Machine

/-- The Address Space as a sparse list of (address, byte), in the canonical form `Memory.wf` (Machine/Memory.lean); an
address not listed holds its construction byte. Log entry 8. -/
abbrev Memory := List Host.Cell

/-- The Output Surface: 32 rows of 64 one-bit pixels (10_state.md R32). Row `r`'s pixel in column `c` is bit `c` of the
`r`th row. Log entry 14. -/
abbrev Framebuffer := Vector (BitVec 64) 32

/-- The kind of access an AddressFault records (60_exceptions.md R222). -/
inductive AccessKind where
  | fetch
  | read
  | write
  deriving DecidableEq, Repr

/-- The fault record (60_exceptions.md R220, R222): one constructor per fault, with the fields R222 gives it. -/
inductive FaultRecord where
  /-- code 1: raised by the cycle's decode of an illegal word (R223) -/
  | decodeFault (pc word : Word)
  /-- code 2: raised by 2NNN when `SP = 16` (R224) -/
  | stackOverflow (pc word : Word)
  /-- code 3: raised by 00EE when `SP = 0` (R225) -/
  | stackUnderflow (pc word : Word)
  /-- code 4: raised by the fetch (no word), DXYN, FX33, FX55 and FX65 (R226) -/
  | addressFault (pc : Word) (word : Option Word) (addr : Nat) (access : AccessKind)
  /-- code 5: raised by EX9E and EXA1 when the key number is above 15 (R227) -/
  | keyIndexFault (pc word : Word) (value : Byte)
  /-- code 6: named by the source and raised by no instruction (R228) -/
  | registerIndexFault (pc word : Word)
  deriving DecidableEq, Repr

/-- The host's run-state (60_exceptions.md R250). -/
inductive RunState where
  | created
  | running
  | stopped
  deriving DecidableEq, Repr

/-- The host's commands (60_exceptions.md R252 to R256). -/
inductive HostCommand where
  | start
  | stop
  | step
  | cpu
  | mem (address length : Nat)
  deriving DecidableEq, Repr

/-- What the `cpu` command copies (10_state.md R40, 60_exceptions.md R255). -/
structure CpuSnapshot where
  v     : Vector Byte 16
  i     : Word
  pc    : Word
  sp    : Fin 17
  stack : Vector Word 16
  deriving DecidableEq, Repr

/-- What a command sends back (60_exceptions.md R255, R256, R243). The wire layout is out of scope (00_scope.md R6). -/
inductive HostReply where
  /-- the register snapshot -/
  | cpu (snapshot : CpuSnapshot)
  /-- the bytes of a `mem` read -/
  | mem (bytes : List Byte)
  /-- a protocol fault: the connection is closed and no data is returned -/
  | connectionClosed
  deriving DecidableEq, Repr

/-- What the host supplies for one cycle: its key vector and its random byte (00_scope.md R18, 40_control_flow.md R100). -/
structure CycleInput where
  keys : BitVec 16
  rand : Byte
  deriving DecidableEq, Repr

/-- The whole machine. The first thirteen fields are the CORE's record of R20, `keys` is the Input Surface's vector of the
current cycle (R34), `runState` and `pending` are the host's (R250, R251), and the rest are the model's own (INVENTORY.md,
log entries 5, 6, 7, 11). -/
structure State where
  /-- `V0`..`VF` (R21) -/
  v        : Vector Byte 16
  /-- the address register (R24) -/
  i        : Word
  /-- the program counter (R25) -/
  pc       : Word
  /-- the call-stack entries `S[0..15]` (R27) -/
  stack    : Vector Word 16
  /-- the number of live stack entries, 0..16 (R27) -/
  sp       : Fin 17
  /-- the delay timer (R29) -/
  dt       : Byte
  /-- the sound timer (R30) -/
  st       : Byte
  /-- the Address Space (R31) -/
  mem      : Memory
  /-- the Output Surface (R32) -/
  fb       : Framebuffer
  /-- the count of commit notifications (R33) -/
  commits  : Nat
  /-- the key vector of the previous cycle (R34) -/
  prevKeys : BitVec 16
  /-- the key-wait sub-state (R35) -/
  wait     : Option Reg
  /-- the fault record, sticky (R36) -/
  fault    : Option FaultRecord
  /-- the Input Surface: the key vector of the current cycle (R34) -/
  keys     : BitVec 16
  /-- the run-state (60_exceptions.md R250) -/
  runState : RunState
  /-- the command channel, oldest first (60_exceptions.md R251) -/
  pending  : List HostCommand
  /-- the replies sent so far, oldest first (log entry 11) -/
  replies  : List HostReply
  /-- the inputs the host has lined up for coming cycles (log entry 5) -/
  inputs   : List CycleInput
  /-- how many cycles have drawn their inputs (log entry 5) -/
  draws    : Nat
  /-- the random byte of the current cycle (log entry 6) -/
  rand     : Byte
  /-- the open parameters (log entry 7) -/
  params   : Params
  deriving DecidableEq, Repr

/-- Why the machine stops. -/
inductive Fault where
  /-- Raised by `step` alone, on a machine whose `FAULT` already holds a record: "no cycle is enabled" (60_exceptions.md
  R232, 93_implementation_defined.md U12). Safe: the model has no step where the spec has none. -/
  | halted (record : FaultRecord)
  deriving DecidableEq, Repr

/-- Why the model gives no meaning. -/
inductive Refusal where
  /-- Raised by `exec` for an instruction that has no meaning yet, by the table's mnemonic. Safe. No arm raises it: every
  row of the table has its meaning. -/
  | notModelled (mnemonic : String)
  deriving DecidableEq, Repr

/-- What one instruction, one cycle or one step answers. -/
abbrev Result := Host.Outcome State Fault Refusal

/-- The machine right after construction with an empty image and the default parameters (10_state.md R39,
70_reset_and_hazards.md R260). Memory lists nothing: every address holds its construction byte (20_memory.md R56, R58).
The values of `keys`, `rand`, `pending`, `replies`, `inputs` and `draws` are DESIGN CHOICES (log entries 1, 5, 6, 11). -/
def State.reset : State where
  v := Vector.replicate 16 0
  i := 0
  pc := 0x200
  stack := Vector.replicate 16 0
  sp := 0
  dt := 0
  st := 0
  mem := []
  fb := Vector.replicate 32 0
  commits := 0
  prevKeys := 0
  wait := none
  fault := none
  keys := 0
  runState := .created
  pending := []
  replies := []
  inputs := []
  draws := 0
  rand := 0
  params := Params.default

end Sys2Proof.Machine
end

