-- ==== Sys2Proof/Machine/Memory.lean ====
section
/-! DEFINITION. The Address Space (spec 20_memory.md): its construction contents, reading and writing a byte, words and
blocks over them, the bounds check, and the canonical form of the list that holds it. -/

namespace Sys2Proof.Machine

/-- The five rows of a glyph of the built-in font (R58). The spec marks these bytes as general knowledge (D29). -/
def glyphRows : Nat → List Byte
  | 0x0 => [0xF0, 0x90, 0x90, 0x90, 0xF0]
  | 0x1 => [0x20, 0x60, 0x20, 0x20, 0x70]
  | 0x2 => [0xF0, 0x10, 0xF0, 0x80, 0xF0]
  | 0x3 => [0xF0, 0x10, 0xF0, 0x10, 0xF0]
  | 0x4 => [0x90, 0x90, 0xF0, 0x10, 0x10]
  | 0x5 => [0xF0, 0x80, 0xF0, 0x10, 0xF0]
  | 0x6 => [0xF0, 0x80, 0xF0, 0x90, 0xF0]
  | 0x7 => [0xF0, 0x10, 0x20, 0x40, 0x40]
  | 0x8 => [0xF0, 0x90, 0xF0, 0x90, 0xF0]
  | 0x9 => [0xF0, 0x90, 0xF0, 0x10, 0xF0]
  | 0xA => [0xF0, 0x90, 0xF0, 0x90, 0x90]
  | 0xB => [0xE0, 0x90, 0xE0, 0x90, 0xE0]
  | 0xC => [0xF0, 0x80, 0x80, 0x80, 0xF0]
  | 0xD => [0xE0, 0x90, 0x90, 0x90, 0xE0]
  | 0xE => [0xF0, 0x80, 0xF0, 0x80, 0xF0]
  | 0xF => [0xF0, 0x80, 0xF0, 0x80, 0x80]
  | _ => []

/-- `FONT`'s default: the 80 bytes of R58, glyph `d` at offset `5 * d`. -/
def fontTable : List Byte := (List.range 16).flatMap glyphRows

/-- What an address that the list does not name reads as: its byte after construction with the default font and before
the program image, the font at 0x000..0x04F and 0 from 0x050 on (R56, R58, 10_state.md R39). -/
def Memory.unlisted (a : Nat) : Byte := fontTable.getD a 0

/-- The byte at an address (R50). -/
def Memory.read : Memory → Nat → Byte
  | [], a => Memory.unlisted a
  | (k, b) :: m, a => if k = a then b else Memory.read m a

/-- Storing a byte (R62), keeping the canonical form: the value an unlisted address reads as is not listed. -/
def Memory.write : Memory → Nat → Byte → Memory
  | [], a, b => if b = Memory.unlisted a then [] else [(a, b)]
  | (k, c) :: m, a, b =>
    if k < a then (k, c) :: Memory.write m a b
    else if k = a then (if b = Memory.unlisted a then m else (a, b) :: m)
    else if b = Memory.unlisted a then (k, c) :: m
    else (a, b) :: (k, c) :: m

/-- `MemRead(a, 2)`: big-endian, the byte at the lower address is the more significant (R52, 00_scope.md R12). -/
def Memory.readWord (m : Memory) (a : Nat) : Word := wordOfBytes (m.read a) (m.read (a + 1))

/-- The `n` bytes from `a` on, in increasing address order (R60). -/
def Memory.readBlock (m : Memory) (a n : Nat) : List Byte := (List.range n).map fun k => m.read (a + k)

/-- The block write of bytes at `a`, `a+1`, ... in increasing address order (R60, 00_scope.md R12). -/
def Memory.writeBlock : Memory → Nat → List Byte → Memory
  | m, _, [] => m
  | m, a, b :: bs => Memory.writeBlock (m.write a b) (a + 1) bs

/-- `check(a, n)` of R55: the first out-of-bounds address of an access of `n` bytes at `a`, or none if every byte lies in
0x000..0xFFF. An access of zero bytes is never out of bounds. -/
def outOfBounds (a n : Nat) : Option Nat :=
  if n ≠ 0 ∧ a + n - 1 > 0xFFF then some (max a 0x1000) else none

/-- The canonical form: addresses strictly rising and below 4096, and no entry equal to what its address reads as when
it is not listed. -/
abbrev Memory.wf (m : Memory) : Prop :=
  m.Pairwise (fun c d => c.1 < d.1) ∧ ∀ c ∈ m, c.1 < 4096 ∧ c.2 ≠ Memory.unlisted c.1

end Sys2Proof.Machine
end

