-- ==== Sys2Proof/Machine/Ops.lean ====
section
/-! DEFINITION. The named operations over registers, the program counter, the call stack, memory and the timers that the
meanings share, and raising a fault, the machine's only exception (spec 60_exceptions.md R221, R231). -/

namespace Sys2Proof.Machine

/-! ## Registers and the program counter -/

/-- `V[r]` (10_state.md R21). -/
def State.reg (s : State) (r : Reg) : Byte := s.v[r.val]

/-- `V[r] <- b` (10_state.md R21). -/
def State.setReg (s : State) (r : Reg) (b : Byte) : State := { s with v := s.v.set r.val b }

/-- `PC <- target` (00_scope.md R11). -/
def State.setPc (s : State) (target : Word) : State := { s with pc := target }

/-- `PC <- PC + 2`, modulo 65536 (10_state.md R25, R26). -/
def State.advance (s : State) : State := s.setPc (s.pc + 2)

/-- A conditional skip: `PC + 4` when the condition holds, `PC + 2` when it fails (40_control_flow.md R102). -/
def State.skipIf (s : State) (taken : Bool) : State := s.setPc (if taken then s.pc + 4 else s.pc + 2)

/-- `I <- w` (10_state.md R24). -/
def State.setI (s : State) (w : Word) : State := { s with i := w }

/-- An operation that writes a flag writes the result first and the flag to `VF` last (41_alu.md R131). -/
def State.setRegFlag (s : State) (x : Reg) (result flag : Byte) : State := (s.setReg x result).setReg regF flag

/-! ## The call stack (10_state.md R27, R28) -/

/-- Pushing a return address; none when `SP = 16`. -/
def State.push (s : State) (w : Word) : Option State :=
  if h : s.sp.val < 16 then
    some { s with stack := s.stack.set s.sp.val w, sp := ⟨s.sp.val + 1, by omega⟩ }
  else none

/-- Popping the newest return address; none when `SP = 0`. The popped entry keeps its value (R28). -/
def State.pop (s : State) : Option (Word × State) :=
  if h : 0 < s.sp.val then
    some (s.stack[s.sp.val - 1], { s with sp := ⟨s.sp.val - 1, by omega⟩ })
  else none

/-! ## Raising a fault -/

/-- `raise F(info)` (60_exceptions.md R221): `FAULT` takes the record and nothing else changes. `PC` keeps the address of
the faulting instruction, and what the cycle did before the instruction (the timers' decrement) stays. There is no trap
entry, no vector and no return (R231). -/
def State.raise (s : State) (r : FaultRecord) : State := { s with fault := some r }

/-- The 16-bit address of the faulting instruction (60_exceptions.md R222). -/
def FaultRecord.pc : FaultRecord → Word
  | .decodeFault pc _ => pc
  | .stackOverflow pc _ => pc
  | .stackUnderflow pc _ => pc
  | .addressFault pc _ _ _ => pc
  | .keyIndexFault pc _ _ => pc
  | .registerIndexFault pc _ => pc

/-- The fault's code (60_exceptions.md R220). -/
def FaultRecord.code : FaultRecord → Nat
  | .decodeFault _ _ => 1
  | .stackOverflow _ _ => 2
  | .stackUnderflow _ _ => 3
  | .addressFault _ _ _ _ => 4
  | .keyIndexFault _ _ _ => 5
  | .registerIndexFault _ _ => 6

/-- The raw word, absent for a fetch AddressFault (60_exceptions.md R222). -/
def FaultRecord.word : FaultRecord → Option Word
  | .decodeFault _ w => some w
  | .stackOverflow _ w => some w
  | .stackUnderflow _ w => some w
  | .addressFault _ w _ _ => w
  | .keyIndexFault _ w _ => some w
  | .registerIndexFault _ w => some w

/-- The first out-of-bounds address, for AddressFault only (60_exceptions.md R222). -/
def FaultRecord.addr : FaultRecord → Option Nat
  | .decodeFault _ _ => none
  | .stackOverflow _ _ => none
  | .stackUnderflow _ _ => none
  | .addressFault _ _ a _ => some a
  | .keyIndexFault _ _ _ => none
  | .registerIndexFault _ _ => none

/-- The kind of access, for AddressFault only (60_exceptions.md R222). -/
def FaultRecord.access : FaultRecord → Option AccessKind
  | .decodeFault _ _ => none
  | .stackOverflow _ _ => none
  | .stackUnderflow _ _ => none
  | .addressFault _ _ _ k => some k
  | .keyIndexFault _ _ _ => none
  | .registerIndexFault _ _ => none

/-- The offending key number, for KeyIndexFault only (60_exceptions.md R222). -/
def FaultRecord.value : FaultRecord → Option Byte
  | .decodeFault _ _ => none
  | .stackOverflow _ _ => none
  | .stackUnderflow _ _ => none
  | .addressFault _ _ _ _ => none
  | .keyIndexFault _ _ v => some v
  | .registerIndexFault _ _ => none

/-! ## Memory through the state -/

/-- `M[a]` (20_memory.md R50). -/
def State.byteAt (s : State) (a : Nat) : Byte := s.mem.read a

/-- The block write of bytes from `a` on. -/
def State.storeBytes (s : State) (a : Nat) (bytes : List Byte) : State := { s with mem := s.mem.writeBlock a bytes }

/-- A data access of `n` bytes at `I` by the instruction `ins`: the whole range is checked first; if a byte lies outside,
AddressFault is raised and nothing else happens, else the instruction's effect `done` (20_memory.md R55, R68). The word
recorded is the instruction's encoding, which is the word fetched (log entry 9). -/
def State.accessAtI (s : State) (ins : Instr) (kind : AccessKind) (n : Nat) (done : State) : State :=
  match outOfBounds s.i.toNat n with
  | some a => s.raise (.addressFault s.pc (some (encode ins)) a kind)
  | none => done

/-- The instruction fetch: both bytes are checked, then the big-endian word at `PC` (20_memory.md R52, R54, R55). -/
def State.fetchWord (s : State) : Except FaultRecord Word :=
  match outOfBounds s.pc.toNat 2 with
  | some a => .error (.addressFault s.pc none a .fetch)
  | none => .ok (s.mem.readWord s.pc.toNat)

/-! ## The start and the end of a cycle (40_control_flow.md R100) -/

/-- `if T != 0 then T <- T - 1` (43_timers.md R180, R181). -/
def tick (t : Byte) : Byte := if t = 0 then 0 else t - 1

/-- What the host supplies for the cycle that begins: the oldest input it has lined up, else the free values
(00_scope.md R18, log entry 5). -/
def State.nextInput (s : State) : CycleInput :=
  match s.inputs with
  | input :: _ => input
  | [] => { keys := Config.freeKeys s.draws, rand := Config.freeByte s.draws }

/-- The start of every cycle: the timers count down, then the Input Surface is refreshed and the random byte drawn. -/
def State.beginCycle (s : State) : State :=
  { s with
    dt := tick s.dt
    st := tick s.st
    keys := s.nextInput.keys
    rand := s.nextInput.rand
    inputs := s.inputs.tail
    draws := s.draws + 1 }

/-- The end of a cycle that raised no fault: `PREV_KEYS <- KEYS`. A faulting cycle does not reach it (60_exceptions.md
R221). -/
def State.endCycle (s : State) : State :=
  match s.fault with
  | none => { s with prevKeys := s.keys }
  | some _ => s

end Sys2Proof.Machine
end

