-- ==== Sys2Proof/Machine/Operands.lean ====
section
/-! DEFINITION. The operand forms: immediates, the shifts' source register, the addresses and bytes of the block accesses,
BCD digits, glyph addresses, the pixels of a sprite, and key numbers. -/

namespace Sys2Proof.Machine

/-- `zext_16(nnn)` (30_encoding.md R83). -/
def zext12 (nnn : Addr12) : Word := nnn.setWidth 16

/-- `zext_16` of a register (00_scope.md R9). -/
def zext8 (b : Byte) : Word := b.setWidth 16

/-- The shifts' operand: `V[y]` under `SHIFT_SOURCE = Vy`, `V[x]` under `Vx` (41_alu.md R140, R142). -/
def State.shiftOperand (s : State) (x y : Reg) : Byte :=
  match s.params.shiftSource with
  | .vy => s.reg y
  | .vx => s.reg x

/-- The address of the glyph of a digit: the low nibble times 5 (42_index_memory.md R162). -/
def glyphAddress (b : Byte) : Word := zext8 (b &&& 0x0F) * 5

/-- The decimal digits of a byte, hundreds first (42_index_memory.md R163). -/
def bcdDigits (b : Byte) : List Byte :=
  [BitVec.ofNat 8 (b.toNat / 100), BitVec.ofNat 8 (b.toNat / 10 % 10), BitVec.ofNat 8 (b.toNat % 10)]

/-- The bytes `V0`, ..., `Vx` (42_index_memory.md R164). -/
def State.regBlock (s : State) (x : Reg) : List Byte := s.v.toList.take (x.val + 1)

/-- Loading `V0..Vx` from the bytes at `a`, `a+1`, ...; the registers above `x` keep their values (42_index_memory.md R165). -/
def State.loadRegBlock (s : State) (x : Reg) (a : Nat) : State :=
  { s with v := Vector.ofFn fun r => if r.val ≤ x.val then s.byteAt (a + r.val) else s.v[r.val] }

/-! ## The Output Surface -/

/-- The pixel in row `q` and column `c` (10_state.md R32). -/
def Framebuffer.pixel (fb : Framebuffer) (q c : Nat) : Bool :=
  if h : q < 32 then fb[q].getLsbD c else false

/-- Exclusive-or of one pixel with 1 (44_display_keypad.md R192). -/
def Framebuffer.toggle (fb : Framebuffer) (q c : Nat) : Framebuffer :=
  if h : q < 32 then fb.set q (fb[q] ^^^ BitVec.twoPow 64 c) else fb

/-- The clear surface (44_display_keypad.md R191). -/
def Framebuffer.clear : Framebuffer := Vector.replicate 32 0

/-- `place(px, py)`: the column and row a sprite's pixel lands on (44_display_keypad.md R193, R194). -/
def place (edge : DrawEdge) (px py : Nat) : Option (Nat × Nat) :=
  match edge with
  | .wrap => some (px % 64, py % 32)
  | .clip => if px < 64 ∧ py < 32 then some (px, py) else none

/-- The (column, row) cells that the set bits of a sprite's rows land on, drawn at column `cx` and row `cy`: rows from the
top, bit 7 leftmost (44_display_keypad.md R192). -/
def spriteCells (edge : DrawEdge) (cx cy : Nat) (rows : List Byte) : List (Nat × Nat) :=
  (List.range rows.length).flatMap fun r =>
    (List.range 8).filterMap fun b =>
      if (rows.getD r 0).getLsbD (7 - b) then place edge (cx + b) (cy + r) else none

/-- Toggling one cell, remembering whether a set pixel was turned off (44_display_keypad.md R192). -/
def drawCell (acc : Framebuffer × Bool) (cell : Nat × Nat) : Framebuffer × Bool :=
  (acc.1.toggle cell.2 cell.1, acc.2 || acc.1.pixel cell.2 cell.1)

/-- Drawing every cell in turn: the surface after, and whether there was a collision (44_display_keypad.md R192). -/
def drawCells (fb : Framebuffer) (cells : List (Nat × Nat)) : Framebuffer × Bool :=
  cells.foldl drawCell (fb, false)

/-! ## The Input Surface -/

/-- `KEYS[k] = 1` (10_state.md R34). -/
def keyDown (keys : BitVec 16) (k : Nat) : Bool := keys.getLsbD k

/-- `k` is newly pressed: down in this cycle's vector and not in the previous one (44_display_keypad.md R200). -/
def newlyPressed (keys prev : BitVec 16) (k : Nat) : Bool := keyDown keys k && !keyDown prev k

/-- The lowest newly pressed key (40_control_flow.md R101). -/
def lowestNewKey (keys prev : BitVec 16) : Option Nat := (List.range 16).find? (newlyPressed keys prev)

end Sys2Proof.Machine
end

