-- ==== Sys2Proof/Machine/Flags.lean ====
section
/-! DEFINITION. Every flag computation: what 8XY4, 8XY5, 8XY6, 8XY7, 8XYE and DXYN write to `VF` (spec 10_state.md R22,
41_alu.md R131, 44_display_keypad.md R192). Each is a function of the operands alone. -/

namespace Sys2Proof.Machine

/-- A flag is the byte 1 or 0. -/
def flagByte (b : Bool) : Byte := if b then 1 else 0

/-- 8XY4: 1 when the 9-bit sum exceeds 255 (41_alu.md R138). -/
def carryFlag (a b : Byte) : Byte := flagByte (decide (a.toNat + b.toNat > 255))

/-- 8XY5: 1 exactly when `Vx > Vy`, strictly, before the subtraction (41_alu.md R139). -/
def greaterFlag (a b : Byte) : Byte := flagByte (decide (a.toNat > b.toNat))

/-- 8XY7: the complement of 8XY5's comparison of the same operands (41_alu.md R141). -/
def notGreaterFlag (a b : Byte) : Byte := flagByte (!decide (a.toNat > b.toNat))

/-- 8XY6: the bit shifted out, bit 0 of the source (41_alu.md R140). -/
def lowBitFlag (a : Byte) : Byte := flagByte (a.getLsbD 0)

/-- 8XYE: the bit shifted out, bit 7 of the source (41_alu.md R142). -/
def highBitFlag (a : Byte) : Byte := flagByte (a.getLsbD 7)

/-- DXYN: 1 when a set pixel was turned off (44_display_keypad.md R192). -/
def collisionFlag (collision : Bool) : Byte := flagByte collision

end Sys2Proof.Machine
end

