-- ==== Sys2Proof/Machine/Alu.lean ====
section
/-! DEFINITION. Register and ALU instructions (spec 41_alu.md R130 to R143). Both operands are read before anything is
written, and a flag is written last (R131). -/

namespace Sys2Proof.Machine

/-- LD Vx, kk (R132). -/
def execLdImm (x : Reg) (kk : Byte) (s : State) : Result := .next (s.setReg x kk).advance

/-- ADD Vx, kk: modulo 256, no flag (R133). -/
def execAddImm (x : Reg) (kk : Byte) (s : State) : Result := .next (s.setReg x (s.reg x + kk)).advance

/-- LD Vx, Vy (R134). -/
def execLdReg (x y : Reg) (s : State) : Result := .next (s.setReg x (s.reg y)).advance

/-- OR Vx, Vy: no flag (R135). -/
def execOrReg (x y : Reg) (s : State) : Result := .next (s.setReg x (s.reg x ||| s.reg y)).advance

/-- AND Vx, Vy: no flag (R136). -/
def execAndReg (x y : Reg) (s : State) : Result := .next (s.setReg x (s.reg x &&& s.reg y)).advance

/-- XOR Vx, Vy: no flag (R137). -/
def execXorReg (x y : Reg) (s : State) : Result := .next (s.setReg x (s.reg x ^^^ s.reg y)).advance

/-- ADD Vx, Vy: the sum modulo 256, the carry in `VF` (R138). -/
def execAddReg (x y : Reg) (s : State) : Result :=
  .next (s.setRegFlag x (s.reg x + s.reg y) (carryFlag (s.reg x) (s.reg y))).advance

/-- SUB Vx, Vy: `Vx - Vy` modulo 256, `VF` = 1 when `Vx > Vy` (R139). -/
def execSubReg (x y : Reg) (s : State) : Result :=
  .next (s.setRegFlag x (s.reg x - s.reg y) (greaterFlag (s.reg x) (s.reg y))).advance

/-- SHR Vx, Vy: the source shifted right by one, the bit shifted out in `VF` (R140). -/
def execShrReg (x y : Reg) (s : State) : Result :=
  .next (s.setRegFlag x (s.shiftOperand x y >>> 1) (lowBitFlag (s.shiftOperand x y))).advance

/-- SUBN Vx, Vy: `Vy - Vx` modulo 256, `VF` = 1 when `Vx <= Vy` (R141). -/
def execSubnReg (x y : Reg) (s : State) : Result :=
  .next (s.setRegFlag x (s.reg y - s.reg x) (notGreaterFlag (s.reg x) (s.reg y))).advance

/-- SHL Vx, Vy: the source shifted left by one modulo 256, the bit shifted out in `VF` (R142). -/
def execShlReg (x y : Reg) (s : State) : Result :=
  .next (s.setRegFlag x (s.shiftOperand x y <<< 1) (highBitFlag (s.shiftOperand x y))).advance

/-- RND Vx, kk: the cycle's random byte and `kk` (R143). The byte is a free value (log entry 5). -/
def execRnd (x : Reg) (kk : Byte) (s : State) : Result := .next (s.setReg x (s.rand &&& kk)).advance

end Sys2Proof.Machine
end

