-- ==== Sys2Proof/Machine/Control.lean ====
section
/-! DEFINITION. Control transfer: SYS, RET, JP, CALL, the four compare-and-skip instructions and JP V0 (spec
40_control_flow.md R103 to R111). -/

namespace Sys2Proof.Machine

/-- SYS nnn: a no-op that advances `PC`; the address is ignored (R103). -/
def execSys (_nnn : Addr12) (s : State) : Result := .next s.advance

/-- RET: pop the return address into `PC`; StackUnderflow when `SP = 0` (R104, 60_exceptions.md R225). -/
def execRet (s : State) : Result :=
  match s.pop with
  | some (w, s') => .next (s'.setPc w)
  | none => .next (s.raise (.stackUnderflow s.pc (encode .ret)))

/-- JP nnn (R105). -/
def execJp (nnn : Addr12) (s : State) : Result := .next (s.setPc (zext12 nnn))

/-- CALL nnn: push `PC + 2` and jump; StackOverflow when `SP = 16` (R106, 60_exceptions.md R224). -/
def execCall (nnn : Addr12) (s : State) : Result :=
  match s.push (s.pc + 2) with
  | some s' => .next (s'.setPc (zext12 nnn))
  | none => .next (s.raise (.stackOverflow s.pc (encode (.call nnn))))

/-- SE Vx, kk: skip if equal (R107). -/
def execSeImm (x : Reg) (kk : Byte) (s : State) : Result := .next (s.skipIf (s.reg x == kk))

/-- SNE Vx, kk: skip if not equal (R108). -/
def execSneImm (x : Reg) (kk : Byte) (s : State) : Result := .next (s.skipIf (s.reg x != kk))

/-- SE Vx, Vy: skip if equal (R109). -/
def execSeReg (x y : Reg) (s : State) : Result := .next (s.skipIf (s.reg x == s.reg y))

/-- SNE Vx, Vy: skip if they differ (R110). -/
def execSneReg (x y : Reg) (s : State) : Result := .next (s.skipIf (s.reg x != s.reg y))

/-- JP V0, nnn: jump to `nnn + V0`; the register is always `V0` (R111). -/
def execJpV0 (nnn : Addr12) (s : State) : Result := .next (s.setPc (zext12 nnn + zext8 (s.reg 0)))

end Sys2Proof.Machine
end

