-- ==== Sys2Proof/Machine/Display.lean ====
section
/-! DEFINITION. Display instructions (spec 44_display_keypad.md R190 to R195). -/

namespace Sys2Proof.Machine

/-- CLS: every pixel 0; no commit, no flag (R191). -/
def execCls (s : State) : Result := .next { s with fb := Framebuffer.clear }.advance

/-- What a draw does to the surface and to the collision flag, the sprite's `n` rows being at `I` (R192). -/
def State.drawSprite (s : State) (x y : Reg) (n : Nat) : Framebuffer × Bool :=
  drawCells s.fb
    (spriteCells s.params.drawEdge (s.reg x).toNat (s.reg y).toNat (s.mem.readBlock s.i.toNat n))

/-- A draw whose sprite is in bounds: the surface, then `VF`, then one commit (R192, R195). -/
def State.drawn (s : State) (x y : Reg) (n : Nat) : State :=
  { s with fb := (s.drawSprite x y n).1, commits := s.commits + 1 }.setReg regF (collisionFlag (s.drawSprite x y n).2)

/-- DRW Vx, Vy, n: the coordinates are read before `VF` is written, and the whole sprite is checked before anything is
drawn (R192). `n = 0` checks and draws nothing, sets `VF = 0` and commits. -/
def execDrw (x y : Reg) (n : BitVec 4) (s : State) : Result :=
  .next (s.accessAtI (.drw x y n) .read n.toNat (s.drawn x y n.toNat).advance)

end Sys2Proof.Machine
end

