-- ==== Sys2Proof/Machine/Index.lean ====
section
/-! DEFINITION. Address register and memory instructions (spec 42_index_memory.md R160 to R166). No access changes `I`. -/

namespace Sys2Proof.Machine

/-- LD I, nnn (R160). -/
def execLdI (nnn : Addr12) (s : State) : Result := .next (s.setI (zext12 nnn)).advance

/-- ADD I, Vx: modulo 65536, no flag, no fault (R161). -/
def execAddI (x : Reg) (s : State) : Result := .next (s.setI (s.i + zext8 (s.reg x))).advance

/-- LD F, Vx: the address of the glyph of `Vx`'s low nibble (R162). -/
def execLdFont (x : Reg) (s : State) : Result := .next (s.setI (glyphAddress (s.reg x))).advance

/-- LD B, Vx: the three decimal digits of `Vx` at `I`, `I+1`, `I+2` (R163). -/
def execLdBcd (x : Reg) (s : State) : Result :=
  .next (s.accessAtI (.ldBcd x) .write 3 (s.storeBytes s.i.toNat (bcdDigits (s.reg x))).advance)

/-- LD [I], Vx: `V0..Vx` at `I`, ..., `I+x` (R164). -/
def execLdMemReg (x : Reg) (s : State) : Result :=
  .next (s.accessAtI (.ldMemReg x) .write (x.val + 1) (s.storeBytes s.i.toNat (s.regBlock x)).advance)

/-- LD Vx, [I]: `V0..Vx` from `I`, ..., `I+x` (R165). -/
def execLdRegMem (x : Reg) (s : State) : Result :=
  .next (s.accessAtI (.ldRegMem x) .read (x.val + 1) (s.loadRegBlock x s.i.toNat).advance)

end Sys2Proof.Machine
end

