-- ==== Sys2Proof/Machine/Keypad.lean ====
section
/-! DEFINITION. Keypad instructions and the waiting step (spec 44_display_keypad.md R196 to R200, 40_control_flow.md R101). -/

namespace Sys2Proof.Machine

/-- The shape of EX9E and EXA1: a key number above 15 raises KeyIndexFault, else skip if the key's state is `down`
(R197, R198, 60_exceptions.md R227). -/
def State.skipOnKey (s : State) (ins : Instr) (x : Reg) (down : Bool) : State :=
  if (s.reg x).toNat > 15 then s.raise (.keyIndexFault s.pc (encode ins) (s.reg x))
  else s.skipIf (keyDown s.keys (s.reg x).toNat == down)

/-- SKP Vx: skip if the key is pressed (R197). -/
def execSkp (x : Reg) (s : State) : Result := .next (s.skipOnKey (.skp x) x true)

/-- SKNP Vx: skip if the key is not pressed (R198). -/
def execSknp (x : Reg) (s : State) : Result := .next (s.skipOnKey (.sknp x) x false)

/-- LD Vx, K: enter the key-wait sub-state and advance; a later waiting step delivers the key (R199). -/
def execLdRegKey (x : Reg) (s : State) : Result := .next { s with wait := some x }.advance

/-- The waiting step of a cycle that finds `WAIT = x`: the lowest newly pressed key resolves the wait into `V[x]`; with
none, nothing changes. `PC` stays (40_control_flow.md R101). -/
def State.waitingStep (s : State) (x : Reg) : State :=
  match lowestNewKey s.keys s.prevKeys with
  | some k => { s with wait := none }.setReg x (BitVec.ofNat 8 k)
  | none => s

end Sys2Proof.Machine
end

