-- ==== Sys2Proof/Machine/Timers.lean ====
section
/-! DEFINITION. Timer instructions (spec 43_timers.md R182 to R184). The cycle has already counted the timers down
(R180), so FX07 reads the decremented value and a written value is first decremented in the next cycle (R271). -/

namespace Sys2Proof.Machine

/-- LD Vx, DT (R182). -/
def execLdRegDt (x : Reg) (s : State) : Result := .next (s.setReg x s.dt).advance

/-- LD DT, Vx (R183). -/
def execLdDtReg (x : Reg) (s : State) : Result := .next { s with dt := s.reg x }.advance

/-- LD ST, Vx (R184). -/
def execLdStReg (x : Reg) (s : State) : Result := .next { s with st := s.reg x }.advance

end Sys2Proof.Machine
end

