-- ==== Sys2Proof/Machine/Cycle.lean ====
section
/-! DEFINITION. The cycle (spec 40_control_flow.md R100): count the timers down, refresh the keys, then one waiting step
or one instruction, then `PREV_KEYS`. -/

namespace Sys2Proof.Machine

/-- What follows an instruction's answer: a cycle without a fault ends with `PREV_KEYS <- KEYS`. -/
def finishCycle : Result → Result
  | .next s => .next s.endCycle
  | .fault f => .fault f
  | .refused r => .refused r

/-- Fetch, decode and execute, in this order of checks (R100, 60_exceptions.md R229). -/
def fetchAndExecute (s : State) : Result :=
  match s.fetchWord with
  | .error r => .next (s.raise r)
  | .ok w =>
    match decodeWord w with
    | .error _ => .next (s.raise (.decodeFault s.pc w))
    | .ok i => exec i s

/-- One cycle of a machine without a fault (R100). -/
def cycle (s : State) : Result :=
  let s₁ := s.beginCycle
  match s₁.wait with
  | some x => finishCycle (.next (s₁.waitingStep x))
  | none => finishCycle (fetchAndExecute s₁)

end Sys2Proof.Machine
end

