-- ==== Sys2Proof/Machine/ControlPlane.lean ====
section
/-! DEFINITION. The part of the control plane that the scope takes in (spec 00_scope.md R5): the host's commands
(60_exceptions.md R250 to R256), posting one, and lining up a cycle's inputs. -/

namespace Sys2Proof.Machine

/-- What `cpu` copies (60_exceptions.md R255, 10_state.md R40). -/
def State.cpuSnapshot (s : State) : CpuSnapshot :=
  { v := s.v, i := s.i, pc := s.pc, sp := s.sp, stack := s.stack }

/-- What `mem address length` answers: the bytes, or a closed connection if the range leaves 0x000..0xFFF (60_exceptions.md
R256, 20_memory.md R70). A request of no bytes is in range (20_memory.md R55, log entry 12). -/
def State.memReply (s : State) (address length : Nat) : HostReply :=
  match outOfBounds address length with
  | some _ => .connectionClosed
  | none => .mem (s.mem.readBlock address length)

/-- Sending a reply to the host (log entry 11). -/
def State.reply (s : State) (r : HostReply) : State := { s with replies := s.replies ++ [r] }

/-- Applying one command to a machine without a fault (60_exceptions.md R252 to R256). `step` runs one cycle when the
run-state is not Running, and does nothing when it is. -/
def runCommand (c : HostCommand) (s : State) : Result :=
  match c with
  | .start => .next { s with runState := .running }
  | .stop =>
    match s.runState with
    | .running => .next { s with runState := .stopped }
    | .created => .next s
    | .stopped => .next s
  | .step =>
    match s.runState with
    | .running => .next s
    | .created => cycle s
    | .stopped => cycle s
  | .cpu => .next (s.reply (.cpu s.cpuSnapshot))
  | .mem address length => .next (s.reply (s.memReply address length))

/-- The host sends a command: it joins the end of the ordered channel (60_exceptions.md R251). -/
def State.post (s : State) (c : HostCommand) : State := { s with pending := s.pending ++ [c] }

/-- The host lines up the inputs of a coming cycle (00_scope.md R18). -/
def State.supply (s : State) (input : CycleInput) : State := { s with inputs := s.inputs ++ [input] }

/-- One step of a machine without a fault (60_exceptions.md R251): a pending command is taken first; with none, one cycle
when the run-state is Running, else nothing happens. -/
def driverStep (s : State) : Result :=
  match s.pending with
  | c :: rest => runCommand c { s with pending := rest }
  | [] =>
    match s.runState with
    | .running => cycle s
    | .created => .next s
    | .stopped => .next s

end Sys2Proof.Machine
end

