-- ==== Sys2Proof/Machine/Construct.lean ====
section
/-! DEFINITION. Construction, the only reset (spec 70_reset_and_hazards.md R260 to R264): the font load, then the program
load, over the reset state. -/

namespace Sys2Proof.Machine

/-- The default of the parameter `FONT` (20_memory.md R58). -/
def defaultFont : Vector Byte 80 := Vector.ofFn fun k => fontTable.getD k.val 0

/-- The memory after the font load at 0x000 and the program load at 0x200, in this order (R260 steps 1, 5, 6). -/
def constructedMemory (font : Vector Byte 80) (image : List Byte) : Memory :=
  Memory.writeBlock (Memory.writeBlock [] 0x000 font.toList) 0x200 image

/-- The machine constructed with these parameters, this font and this program image; none if the image is longer than
3584 bytes: no machine is constructed (R264, 20_memory.md R69, 60_exceptions.md R242). -/
def State.construct (params : Params) (font : Vector Byte 80) (image : List Byte) : Option State :=
  if image.length ≤ 3584 then
    some { State.reset with params := params, mem := constructedMemory font image }
  else none

end Sys2Proof.Machine
end

