-- ==== Sys2Proof/Machine/Step.lean ====
section
/-! DEFINITION. One step of the machine (spec 60_exceptions.md R232, R251) and the word the next step fetches. -/

namespace Sys2Proof.Machine

/-- One step: a faulted machine has none (60_exceptions.md R232, 93_implementation_defined.md U12); any other takes one
host command or runs one cycle (R251). -/
def step (s : State) : Host.Outcome State Fault Refusal :=
  match s.fault with
  | some r => .fault (.halted r)
  | none => driverStep s

/-- `s` with the instruction word `w` (bits from `nbits` up are 0) stored where the next step fetches, and that step made
a fetching cycle: no fault, no wait, the run-state Running, no command before it, and `PC` at 0x200 if it could not be
fetched from where it is. Log entry 10. -/
def State.withFetchWord (s : State) (nbits w : Nat) : State :=
  let pc : Word := if s.pc.toNat > 0xFFE then 0x200 else s.pc
  { s with
    pc := pc
    mem := s.mem.writeBlock pc.toNat (bytesOfWord (BitVec.ofNat 16 (w % 2 ^ nbits)))
    fault := none
    wait := none
    runState := .running
    pending := [] }

end Sys2Proof.Machine
end

