-- ==== Sys2Proof/Safety.lean ====
section
/-! DEFINITION. What counts as a safe run and an end of a run (spec 60_exceptions.md R220, R232, R257), the invariant of
the machine, the states a machine can reach, and the frame predicates that claims use. -/

namespace Sys2Proof.Machine

/-! ## Runs -/

/-- The next step is a cycle: no fault, no command to take first, and the run-state is Running (60_exceptions.md R251). -/
abbrev State.AboutToCycle (s : State) : Prop :=
  s.fault = none ∧ s.pending = [] ∧ s.runState = .running

/-- The next step is a cycle, be it of a Running machine or of the host's `step` command (60_exceptions.md R251, R254). -/
abbrev State.CycleNext (s : State) : Prop :=
  s.fault = none ∧
    ((s.pending = [] ∧ s.runState = .running) ∨ (s.pending.head? = some .step ∧ s.runState ≠ .running))

/-- The word at `PC`: big-endian (20_memory.md R52). -/
def State.wordAtPc (s : State) : Word := wordOfBytes (s.byteAt s.pc.toNat) (s.byteAt (s.pc.toNat + 1))

/-- A parked machine: it waits for nothing, has no fault, and the word at `PC` is a jump to itself (60_exceptions.md R257). -/
def State.Parked (s : State) : Prop :=
  s.wait = none ∧ s.fault = none ∧ s.pc.toNat ≤ 0xFFE ∧ ∃ nnn : Addr12, s.wordAtPc = encode (.jp nnn) ∧ s.pc.toNat = nnn.toNat

/-- The states a machine can be in: it is constructed, and then the host posts commands and lines up inputs, and the
machine steps, in any interleaving (60_exceptions.md R251). -/
inductive State.Reachable : State → Prop where
  | construct {params : Params} {font : Vector Byte 80} {image : List Byte} {s : State} :
      State.construct params font image = some s → State.Reachable s
  | post {s : State} (c : HostCommand) : State.Reachable s → State.Reachable (s.post c)
  | supply {s : State} (input : CycleInput) : State.Reachable s → State.Reachable (s.supply input)
  | step {s t : State} : State.Reachable s → Machine.step s = .next t → State.Reachable t

/-- What every step keeps: memory stays in its canonical form; `PC` is never above the largest value an instruction can
produce (10_state.md R26); every call-stack entry is a return address, at most 0x1000 (10_state.md R27); and a faulted
machine waits for nothing and its `PC` points at the faulting instruction (60_exceptions.md R221, R230). -/
structure State.Inv (s : State) : Prop where
  memCanonical : s.mem.wf
  pcBound      : s.pc.toNat ≤ 0x10FE
  stackBound   : ∀ j : Fin 16, s.stack[j.val].toNat ≤ 0x1000
  faultPrecise : ∀ r, s.fault = some r → r.pc = s.pc ∧ s.wait = none

/-! ## When a cycle faults (60_exceptions.md R220) -/

/-- The data access an instruction makes: its kind and its bytes (20_memory.md R60). -/
def dataAccess : Instr → Option (AccessKind × Nat)
  | .drw _ _ n => some (.read, n.toNat)
  | .ldBcd _ => some (.write, 3)
  | .ldMemReg x => some (.write, x.val + 1)
  | .ldRegMem x => some (.read, x.val + 1)
  | .sys _ | .cls | .ret | .jp _ | .call _ | .seImm _ _ | .sneImm _ _ | .seReg _ _ | .ldImm _ _ | .addImm _ _
  | .ldReg _ _ | .orReg _ _ | .andReg _ _ | .xorReg _ _ | .addReg _ _ | .subReg _ _ | .shrReg _ _ | .subnReg _ _
  | .shlReg _ _ | .sneReg _ _ | .ldI _ | .jpV0 _ | .rnd _ _ | .skp _ | .sknp _ | .ldRegDt _ | .ldRegKey _
  | .ldDtReg _ | .ldStReg _ | .addI _ | .ldFont _ => none

/-- The record `r` is one that the instruction `i`, executed in `s`, raises: the instruction's own check fails
(60_exceptions.md R224 to R227). -/
inductive Raises (s : State) : Instr → FaultRecord → Prop where
  | overflow (nnn : Addr12) : s.sp.val = 16 → Raises s (.call nnn) (.stackOverflow s.pc (encode (.call nnn)))
  | underflow : s.sp.val = 0 → Raises s .ret (.stackUnderflow s.pc (encode .ret))
  | address (i : Instr) (k : AccessKind) (n : Nat) : dataAccess i = some (k, n) → n ≠ 0 → s.i.toNat + n > 4096 →
      Raises s i (.addressFault s.pc (some (encode i)) (max s.i.toNat 0x1000) k)
  | skp (x : Reg) : (s.reg x).toNat > 15 → Raises s (.skp x) (.keyIndexFault s.pc (encode (.skp x)) (s.reg x))
  | sknp (x : Reg) : (s.reg x).toNat > 15 → Raises s (.sknp x) (.keyIndexFault s.pc (encode (.sknp x)) (s.reg x))

/-- The word at `PC` can be fetched and decodes to `i`. -/
def State.Fetches (s : State) (i : Instr) : Prop :=
  s.pc.toNat ≤ 0xFFE ∧ decodeWord s.wordAtPc = .ok i

/-- The record `r` is the one the spec gives a fetching cycle that starts in `s`: its cause holds and its fields are those
of R220 and R222. -/
def State.FaultCause (s : State) : FaultRecord → Prop
  | .decodeFault pc w =>
      pc = s.pc ∧ w = s.wordAtPc ∧ s.pc.toNat ≤ 0xFFE ∧ ∀ i, decodeWord w ≠ .ok i
  | .stackOverflow pc w =>
      pc = s.pc ∧ w = s.wordAtPc ∧ s.sp.val = 16 ∧ ∃ nnn, s.Fetches (.call nnn)
  | .stackUnderflow pc w =>
      pc = s.pc ∧ w = s.wordAtPc ∧ s.sp.val = 0 ∧ s.Fetches .ret
  | .addressFault pc none a kind =>
      pc = s.pc ∧ kind = .fetch ∧ s.pc.toNat > 0xFFE ∧ a = max s.pc.toNat 0x1000
  | .addressFault pc (some w) a kind =>
      pc = s.pc ∧ w = s.wordAtPc ∧ a = max s.i.toNat 0x1000 ∧
        ∃ i n, s.Fetches i ∧ dataAccess i = some (kind, n) ∧ n > 0 ∧ s.i.toNat + n - 1 > 0xFFF
  | .keyIndexFault pc w value =>
      pc = s.pc ∧ w = s.wordAtPc ∧ value.toNat > 15 ∧
        ∃ x, (s.Fetches (.skp x) ∨ s.Fetches (.sknp x)) ∧ value = s.reg x
  | .registerIndexFault _ _ => False

/-! ## Frames -/

/-- Every register outside `ds` is unchanged. -/
def SameRegistersExcept (s t : State) (ds : List Reg) : Prop := ∀ r, r ∉ ds → t.reg r = s.reg r

/-- Every byte outside the `n` bytes from `a` on reads as before. -/
def SameMemoryOutside (s t : State) (a n : Nat) : Prop :=
  ∀ b, ¬ (a ≤ b ∧ b < a + n) → t.byteAt b = s.byteAt b

/-- Only `PC` and the registers `ds` may have changed: every other field is unchanged and every byte of memory reads as
before. -/
def OnlyRegistersChange (s t : State) (ds : List Reg) : Prop :=
  t = { s with v := t.v, pc := t.pc } ∧ SameRegistersExcept s t ds ∧ SameMemoryOutside s t 0 0

/-- Only `PC` and the `n` bytes of memory from `a` on may have changed. -/
def OnlyBytesChange (s t : State) (a n : Nat) : Prop :=
  t = { s with mem := t.mem, pc := t.pc } ∧ SameRegistersExcept s t [] ∧ SameMemoryOutside s t a n

/-- The registers an instruction writes in its own cycle (10_state.md R23). -/
def writtenRegs : Instr → List Reg
  | .ldImm x _ | .addImm x _ | .ldReg x _ | .orReg x _ | .andReg x _ | .xorReg x _ | .rnd x _ | .ldRegDt x => [x]
  | .addReg x _ | .subReg x _ | .shrReg x _ | .subnReg x _ | .shlReg x _ => [x, regF]
  | .drw _ _ _ => [regF]
  | .ldRegMem x => (List.finRange 16).filter fun r => r.val ≤ x.val
  | .sys _ | .cls | .ret | .jp _ | .call _ | .seImm _ _ | .sneImm _ _ | .seReg _ _ | .sneReg _ _ | .ldI _ | .jpV0 _
  | .skp _ | .sknp _ | .ldRegKey _ | .ldDtReg _ | .ldStReg _ | .addI _ | .ldFont _ | .ldBcd _ | .ldMemReg _ => []

/-- The bytes an instruction stores to: the address is `I`, as the meanings use it, and the count is R60's. -/
def storedBytes (s : State) : Instr → Nat × Nat
  | .ldBcd _ => (s.i.toNat, 3)
  | .ldMemReg x => (s.i.toNat, x.val + 1)
  | .sys _ | .cls | .ret | .jp _ | .call _ | .seImm _ _ | .sneImm _ _ | .seReg _ _ | .ldImm _ _ | .addImm _ _
  | .ldReg _ _ | .orReg _ _ | .andReg _ _ | .xorReg _ _ | .addReg _ _ | .subReg _ _ | .shrReg _ _ | .subnReg _ _
  | .shlReg _ _ | .sneReg _ _ | .ldI _ | .jpV0 _ | .rnd _ _ | .drw _ _ _ | .skp _ | .sknp _ | .ldRegDt _ | .ldRegKey _
  | .ldDtReg _ | .ldStReg _ | .addI _ | .ldFont _ | .ldRegMem _ => (0, 0)

/-! ## Sprites -/

/-- The pixel at column `px`, row `py` of a draw lands on column `c`, row `q` of the surface (44_display_keypad.md R193,
R194). -/
def Lands (edge : DrawEdge) (px py c q : Nat) : Prop :=
  match edge with
  | .wrap => c = px % 64 ∧ q = py % 32
  | .clip => c = px ∧ q = py ∧ px < 64 ∧ py < 32

/-- Some set bit of the `n` sprite rows at `I`, drawn at (`V[x]`, `V[y]`), lands on column `c`, row `q`: bit 7 of a row is
its leftmost pixel (44_display_keypad.md R192). -/
def State.SpriteCovers (s : State) (x y : Reg) (n c q : Nat) : Prop :=
  ∃ r b, r < n ∧ b < 8 ∧ (s.byteAt (s.i.toNat + r)).getLsbD (7 - b) = true ∧
    Lands s.params.drawEdge ((s.reg x).toNat + b) ((s.reg y).toNat + r) c q

end Sys2Proof.Machine
end

