-- ==== Sys2Proof/Certificates/Slice0/Obligations.lean ====
section
/-! DEFINITION. The statements for the provers: definitions of type Prop, none proved here. Each docstring names the rule of spec/
it formalises. -/

open Sys2Proof Sys2Proof.Machine

/-! ## Encoding and decoding (30_encoding.md) -/

/-- Decoding an encoded well-formed instruction gives it back, with every operand at every value (R84, R85, R95). -/
def Obligations.DecodeInvertsEncode : Prop :=
  ∀ i : Instr, i.wellFormed = true → decodeWord (encode i) = .ok i

/-- Every legal word is the encoding of the well-formed instruction it decodes to: no bit of it is ignored (R89, which the
spec marks as derived). -/
def Obligations.EncodeInvertsDecode : Prop :=
  ∀ (w : Word) (i : Instr), decodeWord w = .ok i → i.wellFormed = true ∧ encode i = w

/-- The words the decoder rejects are exactly the five families of R87. -/
def Obligations.RejectedWordsAreTheIllegalOnes : Prop :=
  ∀ w : Word, (∃ e, decodeWord w = .error e) ↔
    (w.toNat / 0x1000 = 0x5 ∧ w.toNat % 0x10 ≠ 0) ∨
    (w.toNat / 0x1000 = 0x8 ∧ w.toNat % 0x10 ∈ [0x8, 0x9, 0xA, 0xB, 0xC, 0xD, 0xF]) ∨
    (w.toNat / 0x1000 = 0x9 ∧ w.toNat % 0x10 ≠ 0) ∨
    (w.toNat / 0x1000 = 0xE ∧ w.toNat % 0x100 ∉ [0x9E, 0xA1]) ∨
    (w.toNat / 0x1000 = 0xF ∧ w.toNat % 0x100 ∉ [0x07, 0x0A, 0x15, 0x18, 0x1E, 0x29, 0x33, 0x55, 0x65])

/-- R86: the only patterns that overlap are SYS's with CLS's and RET's, at the words 0x00E0 and 0x00EE, and those two
words decode as CLS and RET; every other word matches at most one pattern (which the spec marks as derived). -/
def Obligations.PatternsOverlapOnlyAtClsAndRet : Prop :=
  (∀ (i j : Instr) (w : Word), (opcodeRow i).matchesWord w = true → (opcodeRow j).matchesWord w = true →
    opcodeRow i = opcodeRow j ∨ w = 0x00E0 ∨ w = 0x00EE) ∧
  (opcodeRow (.sys 0)).matchesWord 0x00E0 = true ∧ (opcodeRow (.sys 0)).matchesWord 0x00EE = true ∧
  decodeWord 0x00E0 = .ok .cls ∧ decodeWord 0x00EE = .ok .ret

/-- A few words written out from the spec's patterns (95_test_vectors.md E1, E2, E3, and sections 2 and 3). -/
def Obligations.SampleWordsDecode : Prop :=
  decodeWord 0x6A02 = .ok (.ldImm 0xA 0x02) ∧ decodeWord 0x1200 = .ok (.jp 0x200) ∧
  decodeWord 0x8AB4 = .ok (.addReg 0xA 0xB) ∧ decodeWord 0x8AB8 = .error (.illegal8 0x8AB8) ∧
  decodeWord 0xD115 = .ok (.drw 1 1 5) ∧ decodeWord 0xF30A = .ok (.ldRegKey 3) ∧
  decodeWord 0xF265 = .ok (.ldRegMem 2) ∧ decodeWord 0xF215 = .ok (.ldDtReg 2)

/-! ## The cycle (40_control_flow.md R100, R101) and faults (60_exceptions.md) -/

/-- A step runs the decoded instruction: a cycle whose word at `PC` decodes to `i` is `i`'s meaning on the state after the
timers and the inputs, followed by `PREV_KEYS <- KEYS` unless the instruction raised a fault (R100, R221). The same for the
one cycle of the host's `step` command (R254). That a step is one command or one cycle is the model's reading of R251 (log
entry 1). -/
def Obligations.StepRunsDecodedInstruction : Prop :=
  ∀ (s : State) (i : Instr), s.fault = none → s.wait = none → s.Fetches i →
    (s.pending = [] → s.runState = .running →
      ∃ t, exec i s.beginCycle = .next t ∧
        step s = .next { t with prevKeys := if t.fault = none then t.keys else t.prevKeys }) ∧
    (∀ rest, s.pending = .step :: rest → s.runState ≠ .running →
      ∃ t, exec i { s with pending := rest }.beginCycle = .next t ∧
        step s = .next { t with prevKeys := if t.fault = none then t.keys else t.prevKeys })

/-- What a cycle does before its instruction: the timers count down to 0, the host's next input becomes `KEYS` and the
random byte, and every other field stays (R100). How inputs are lined up, and the free values, are the model's choice (log
entry 5). -/
def Obligations.CycleBeginsWithTimersAndInputs : Prop :=
  ∀ s : State,
    s.beginCycle.dt.toNat = s.dt.toNat - 1 ∧ s.beginCycle.st.toNat = s.st.toNat - 1 ∧
    (∀ input rest, s.inputs = input :: rest →
      s.beginCycle.keys = input.keys ∧ s.beginCycle.rand = input.rand ∧ s.beginCycle.inputs = rest) ∧
    (s.inputs = [] → s.beginCycle.keys = Config.freeKeys s.draws ∧ s.beginCycle.rand = Config.freeByte s.draws ∧
      s.beginCycle.inputs = []) ∧
    s.beginCycle.draws = s.draws + 1 ∧
    s.beginCycle = { s with dt := s.beginCycle.dt, st := s.beginCycle.st, keys := s.beginCycle.keys,
                            rand := s.beginCycle.rand, inputs := s.beginCycle.inputs, draws := s.beginCycle.draws }

/-- R180: in every cycle, be it normal, waiting or faulting, of a Running machine or of the `step` command, the delay timer
counts down by one before the instruction and stops at 0. Only FX15 writes it, after that; FX07 reads the decremented value. -/
def Obligations.DelayTimerCountsDownEveryCycle : Prop :=
  ∀ s t : State, s.CycleNext → step s = .next t →
    (t.dt.toNat = s.dt.toNat - 1 ∨ (∃ x, s.wait = none ∧ s.Fetches (.ldDtReg x) ∧ t.dt = s.reg x)) ∧
    (∀ x, s.wait = none → s.Fetches (.ldRegDt x) → (t.reg x).toNat = s.dt.toNat - 1)

/-- R181: the sound timer follows the same law, and FX18 alone writes it. -/
def Obligations.SoundTimerCountsDownEveryCycle : Prop :=
  ∀ s t : State, s.CycleNext → step s = .next t →
    t.st.toNat = s.st.toNat - 1 ∨ (∃ x, s.wait = none ∧ s.Fetches (.ldStReg x) ∧ t.st = s.reg x)

/-- R181, R30: no instruction reads the sound timer. Two states that differ only in `ST` give answers that differ only in
`ST`. -/
def Obligations.NoInstructionReadsTheSoundTimer : Prop :=
  ∀ (i : Instr) (s : State) (b : Byte),
    ∃ t t', exec i s = .next t ∧ exec i { s with st := b } = .next t' ∧ t' = { t with st := t'.st }

/-- A machine without a fault always has a next state: no instruction, command or waiting step stops it (R257: "The machine
never stops by itself"). That an idle Created or Stopped machine has a next state is the model's choice (log entry 2), and
that a cycle that raises a fault answers a next state, which holds the record, is log entry 3. -/
def Obligations.UnfaultedMachineAlwaysSteps : Prop :=
  ∀ s : State, s.fault = none → ∃ t, step s = .next t

/-- R232, R36: a faulted machine has no step, whatever its run-state and pending commands. The model's choices in it
are log entries 3 and 4. -/
def Obligations.FaultedMachineHasNoStep : Prop :=
  ∀ (s : State) (r : FaultRecord), s.fault = some r → step s = .fault (.halted r)

/-- R221: a cycle that raises a fault leaves the state it had after its timers and inputs, with the record in `FAULT` and
nothing else changed: `PC` stays at the faulting instruction, no effect of the instruction is applied, `PREV_KEYS` is not
updated, and `WAIT` is none. (A `step` command that ran the cycle has left the channel.) The spec marks R221 as
derived and as its decision D16. What the cycle began with stays whole: beside the timers' decrements that R221 names, the
refreshed `KEYS`, the random byte and the drawn inputs, which is the model's reading (log entry 16); and that the faulting
cycle answers a next state is log entry 3. -/
def Obligations.FaultingCycleLeavesOnlyItsRecord : Prop :=
  ∀ (s t : State) (r : FaultRecord), s.CycleNext → step s = .next t → t.fault = some r →
    t = { s.beginCycle with fault := some r, pending := s.pending.tail } ∧ r.pc = s.pc ∧ t.pc = s.pc ∧
      t.prevKeys = s.prevKeys ∧ t.wait = none ∧ t.dt.toNat = s.dt.toNat - 1 ∧ t.st.toNat = s.st.toNat - 1

/-- R220, R223 to R228: a fetching cycle raises a fault exactly when one of the spec's causes holds, with the record the
spec gives that cause. In particular no cycle raises RegisterIndexFault. The spec marks R228 (no instruction can raise that one)
and R229 (at most one cause applies) as derived. That the cycle answers a next state with the record is log entry 3, and
that the word in it is the word at `PC` is log entry 9. -/
def Obligations.CycleFaultsExactlyForItsCause : Prop :=
  ∀ (s t : State) (r : FaultRecord), s.CycleNext → s.wait = none → step s = .next t →
    (t.fault = some r ↔ s.FaultCause r)

/-- R101: a waiting cycle fetches nothing, leaves `PC`, and raises no fault. With a newly pressed key the lowest one is
written to the register waited for and the wait ends; with none the wait goes on. -/
def Obligations.WaitingCycleDeliversLowestNewKey : Prop :=
  ∀ (s : State) (x : Reg), s.AboutToCycle → s.wait = some x →
    (∀ k, k < 16 → s.nextInput.keys.getLsbD k = true → s.prevKeys.getLsbD k = false →
      (∀ j, j < k → s.nextInput.keys.getLsbD j = true → s.prevKeys.getLsbD j = true) →
      ∃ t, step s = .next t ∧ (t.reg x).toNat = k ∧ SameRegistersExcept s t [x] ∧
        t = { s.beginCycle with v := t.v, wait := none, prevKeys := s.nextInput.keys }) ∧
    ((∀ k, k < 16 → s.nextInput.keys.getLsbD k = true → s.prevKeys.getLsbD k = true) →
      step s = .next { s.beginCycle with prevKeys := s.nextInput.keys })

/-- R199: the cycle that executes FX0A enters the wait, advances, and never resolves the wait, whatever keys are down in it.
Its keys become `PREV_KEYS`, so a next cycle in which no other key is down goes on waiting: a key held since then does not
end the wait, and the register keeps its value. The spec marks the sentence on a held key as derived. -/
def Obligations.HeldKeyDoesNotEndTheWait : Prop :=
  ∀ (s t : State) (x : Reg), s.AboutToCycle → s.wait = none → s.Fetches (.ldRegKey x) → step s = .next t →
    t = { s.beginCycle with wait := some x, pc := s.pc + 2, prevKeys := s.nextInput.keys } ∧
    ((∀ k, k < 16 → t.nextInput.keys.getLsbD k = true → s.nextInput.keys.getLsbD k = true) →
      ∃ u, step t = .next u ∧ u.wait = some x ∧ u.pc = s.pc + 2 ∧ u.reg x = s.reg x)

/-- The key vector of a cycle that raises no fault becomes `PREV_KEYS` (R100, R196). -/
def Obligations.UnfaultedCycleSamplesItsKeys : Prop :=
  ∀ s t : State, s.CycleNext → step s = .next t → t.fault = none →
    t.keys = s.nextInput.keys ∧ t.prevKeys = s.nextInput.keys

/-! ## The host (60_exceptions.md R250 to R257) -/

/-- R252, R253: `start` makes the run-state Running; `stop` makes a Running machine Stopped and does nothing to another.
Neither sends anything or changes anything else. -/
def Obligations.StartAndStopCommands : Prop :=
  ∀ (s : State) (rest : List HostCommand), s.fault = none →
    (s.pending = .start :: rest → step s = .next { s with pending := rest, runState := .running }) ∧
    (s.pending = .stop :: rest → s.runState = .running →
      step s = .next { s with pending := rest, runState := .stopped }) ∧
    (s.pending = .stop :: rest → s.runState ≠ .running → step s = .next { s with pending := rest })

/-- R254: `step` runs exactly one cycle of a machine that is not Running, the very cycle that machine would run if it were
Running but for the run-state, which stays; on a Running machine it does nothing. It sends nothing. -/
def Obligations.StepCommandRunsOneCycle : Prop :=
  ∀ (s : State) (rest : List HostCommand), s.fault = none → s.pending = .step :: rest →
    (s.runState = .running → step s = .next { s with pending := rest }) ∧
    (s.runState ≠ .running → ∃ t, step s = .next t ∧
      step { s with pending := [], runState := .running } = .next { t with pending := [], runState := .running } ∧
      t.runState = s.runState ∧ t.pending = rest ∧ t.replies = s.replies)

/-- R255: `cpu` answers a copy of the registers, `I`, `PC`, `SP` and the stack, and changes no state of the machine. The
list of replies is the model's choice (log entry 11). -/
def Obligations.CpuCommandCopiesRegisters : Prop :=
  ∀ (s : State) (rest : List HostCommand), s.fault = none → s.pending = .cpu :: rest →
    ∃ snap : CpuSnapshot, step s = .next { s with pending := rest, replies := s.replies ++ [.cpu snap] } ∧
      snap.v = s.v ∧ snap.i = s.i ∧ snap.pc = s.pc ∧ snap.sp = s.sp ∧ snap.stack = s.stack

/-- R256: `mem` answers a copy of the requested bytes, in every run-state, and changes no state of the machine; a request
that leaves 0x000..0xFFF closes the connection and returns no data. The list of replies is the model's choice (log
entry 11). -/
def Obligations.MemCommandCopiesBytes : Prop :=
  ∀ (s : State) (rest : List HostCommand) (a n : Nat), s.fault = none → s.pending = .mem a n :: rest → n > 0 →
    (a + n ≤ 4096 → ∃ bytes : List Byte, step s = .next { s with pending := rest, replies := s.replies ++ [.mem bytes] } ∧
      bytes.length = n ∧ ∀ k, k < n → bytes[k]? = some (s.byteAt (a + k))) ∧
    (a + n > 4096 → step s = .next { s with pending := rest, replies := s.replies ++ [.connectionClosed] })

/-- R251, R266: with no command to take, a machine that is not Running does nothing. That it has a step at all is the model's
choice (log entry 2). -/
def Obligations.MachineThatIsNotRunningIsIdle : Prop :=
  ∀ s : State, s.fault = none → s.pending = [] → s.runState ≠ .running → step s = .next s

/-- R257 (b): every cycle of a parked machine leaves it parked and changes only the timers, `PREV_KEYS` and the cycle's
inputs. -/
def Obligations.ParkedMachineStaysParked : Prop :=
  ∀ s : State, s.AboutToCycle → s.Parked →
    ∃ t, step s = .next t ∧ t.Parked ∧
      t = { s with dt := t.dt, st := t.st, prevKeys := t.prevKeys, keys := t.keys, rand := t.rand, inputs := t.inputs,
                   draws := t.draws }

/-! ## Reset and invariants (10_state.md R39, 70_reset_and_hazards.md) -/

/-- R39, R69: the state after construction, for every font, every program image that fits and every choice of the open
parameters; an image longer than 3584 bytes constructs no machine. -/
def Obligations.ConstructedStateIsTheResetTable : Prop :=
  ∀ (params : Params) (font : Vector Byte 80) (image : List Byte),
    (image.length > 3584 → State.construct params font image = none) ∧
    (image.length ≤ 3584 → ∃ s, State.construct params font image = some s ∧
      (∀ r, s.reg r = 0) ∧ s.i = 0 ∧ s.pc = 0x200 ∧ (∀ j : Fin 16, s.stack[j.val] = 0) ∧ s.sp.val = 0 ∧ s.dt = 0 ∧ s.st = 0 ∧
      (∀ k : Fin 80, s.byteAt k.val = font[k.val]) ∧ (∀ a, 0x050 ≤ a → a ≤ 0x1FF → s.byteAt a = 0) ∧
      (∀ k, k < image.length → image[k]? = some (s.byteAt (0x200 + k))) ∧
      (∀ a, 0x200 + image.length ≤ a → a ≤ 0xFFF → s.byteAt a = 0) ∧
      (∀ q c, s.fb.pixel q c = false) ∧ s.commits = 0 ∧ s.prevKeys = 0 ∧ s.wait = none ∧ s.fault = none ∧
      s.runState = .created ∧ s.params = params)

/-- The reset state is the construction with the default parameters, the default font and no program (R7, R39). Its values of
the model's own fields are the model's choices (log entries 1, 5, 6, 11). -/
def Obligations.ResetIsTheDefaultConstruction : Prop :=
  State.construct Params.default defaultFont [] = some State.reset

/-- The invariant holds after reset. Its canonical form of memory is the model's choice (log entry 8). -/
def Obligations.ResetMeetsTheInvariant : Prop := State.reset.Inv

/-- Every step keeps the invariant, from every state that meets it. Its canonical form of memory is the model's choice (log
entry 8). -/
def Obligations.StepKeepsTheInvariant : Prop :=
  ∀ s t : State, s.Inv → step s = .next t → t.Inv

/-- Every state a machine can reach, under any image, any parameters and any interleaving with the host, meets the
invariant: in particular `PC` never exceeds 0x10FE (R26). The host's interleaving is the model's reading (log
entry 15). -/
def Obligations.ReachableStatesMeetTheInvariant : Prop :=
  ∀ s : State, s.Reachable → s.Inv

/-! ## What an instruction may change (10_state.md R23, R25, R37) -/

/-- R23: an instruction changes no register but those the table gives it. -/
def Obligations.InstructionChangesOnlyItsRegisters : Prop :=
  ∀ (i : Instr) (s t : State), exec i s = .next t → SameRegistersExcept s t (writtenRegs i)

/-- R23, R60: every byte of memory reads as before, except the bytes that FX33 and FX55 store at `I`. -/
def Obligations.InstructionChangesOnlyItsBytes : Prop :=
  ∀ (i : Instr) (s t : State), exec i s = .next t →
    SameMemoryOutside s t (storedBytes s i).1 (storedBytes s i).2

/-- R23, R24, R27, R29, R30, R32, R33, R35: the address register, the stack, the timers, the surface, the commit count and
the wait change only by the instructions the table names. -/
def Obligations.InstructionChangesOnlyItsSpecialState : Prop :=
  ∀ (i : Instr) (s t : State), exec i s = .next t →
    (t.i ≠ s.i → (∃ nnn, i = .ldI nnn) ∨ (∃ x, i = .addI x) ∨ (∃ x, i = .ldFont x)) ∧
    (t.stack ≠ s.stack → ∃ nnn, i = .call nnn) ∧
    (t.sp ≠ s.sp → (∃ nnn, i = .call nnn) ∨ i = .ret) ∧
    (t.dt ≠ s.dt → ∃ x, i = .ldDtReg x) ∧
    (t.st ≠ s.st → ∃ x, i = .ldStReg x) ∧
    (t.fb ≠ s.fb → i = .cls ∨ ∃ x y n, i = .drw x y n) ∧
    (t.commits ≠ s.commits → ∃ x y n, i = .drw x y n) ∧
    (t.wait ≠ s.wait → ∃ x, i = .ldRegKey x)

/-- R250, R38, R34: no instruction changes the run-state, the channel, the replies, the inputs, the key vectors or the
parameters. -/
def Obligations.InstructionNeverTouchesTheHost : Prop :=
  ∀ (i : Instr) (s t : State), exec i s = .next t →
    t.runState = s.runState ∧ t.pending = s.pending ∧ t.replies = s.replies ∧ t.inputs = s.inputs ∧ t.draws = s.draws ∧
    t.rand = s.rand ∧ t.keys = s.keys ∧ t.prevKeys = s.prevKeys ∧ t.params = s.params

/-- R102: how each operation sets `PC` when it raises no fault; a faulting one leaves it. The spec marks its
table as derived; for the ill-formed SYS terms it is the model's choice (log entry 16). -/
def Obligations.InstructionSetsPcByTheTable : Prop :=
  ∀ (i : Instr) (s t : State), s.fault = none → exec i s = .next t →
    (t.fault ≠ none → t.pc = s.pc) ∧
    (t.fault = none →
      match i with
      | .jp nnn => t.pc.toNat = nnn.toNat
      | .call nnn => t.pc.toNat = nnn.toNat ∧ ∃ h : s.sp.val < 16, t.stack[s.sp.val] = s.pc + 2
      | .jpV0 nnn => t.pc.toNat = nnn.toNat + (s.reg 0).toNat
      | .ret => ∃ h : s.sp.val - 1 < 16, t.pc = s.stack[s.sp.val - 1]
      | .seImm x kk => t.pc = if s.reg x = kk then s.pc + 4 else s.pc + 2
      | .sneImm x kk => t.pc = if s.reg x = kk then s.pc + 2 else s.pc + 4
      | .seReg x y => t.pc = if s.reg x = s.reg y then s.pc + 4 else s.pc + 2
      | .sneReg x y => t.pc = if s.reg x = s.reg y then s.pc + 2 else s.pc + 4
      | .skp x => t.pc = if s.keys.getLsbD (s.reg x).toNat = true then s.pc + 4 else s.pc + 2
      | .sknp x => t.pc = if s.keys.getLsbD (s.reg x).toNat = true then s.pc + 2 else s.pc + 4
      | _ => t.pc = s.pc + 2)

/-! ## Control transfer (40_control_flow.md R103 to R111) -/

/-- R103, R105, R111: SYS is a no-op that advances `PC`; JP nnn and JP V0, nnn set `PC` and change nothing else, and the
sum of the latter does not wrap. For the ill-formed SYS 0x0E0 and SYS 0x0EE, outside R103's encoding, this is the model's
choice (log entry 16). -/
def Obligations.SysAndJumpsSetOnlyPc : Prop :=
  ∀ (nnn : Addr12) (s : State),
    exec (.sys nnn) s = .next { s with pc := s.pc + 2 } ∧
    (∃ t, exec (.jp nnn) s = .next t ∧ t.pc.toNat = nnn.toNat ∧ OnlyRegistersChange s t []) ∧
    (∃ t, exec (.jpV0 nnn) s = .next t ∧ t.pc.toNat = nnn.toNat + (s.reg 0).toNat ∧ OnlyRegistersChange s t [])

/-- R106, R224: CALL pushes `PC + 2` and jumps; with 16 live entries it raises StackOverflow and changes nothing else. -/
def Obligations.CallPushesTheReturnAddress : Prop :=
  ∀ (nnn : Addr12) (s : State),
    (s.sp.val < 16 → ∃ t, exec (.call nnn) s = .next t ∧ t.pc.toNat = nnn.toNat ∧ t.sp.val = s.sp.val + 1 ∧
      (∀ j : Fin 16, t.stack[j.val] = if j.val = s.sp.val then s.pc + 2 else s.stack[j.val]) ∧
      t = { s with stack := t.stack, sp := t.sp, pc := t.pc } ∧ SameRegistersExcept s t [] ∧ SameMemoryOutside s t 0 0) ∧
    (s.sp.val = 16 → exec (.call nnn) s = .next { s with fault := some (.stackOverflow s.pc (encode (.call nnn))) })

/-- R104, R225, R28: RET pops the newest return address into `PC` and keeps the entry; with an empty stack it raises
StackUnderflow and changes nothing else. -/
def Obligations.ReturnPopsTheReturnAddress : Prop :=
  ∀ s : State,
    (∀ j : Fin 16, s.sp.val = j.val + 1 → ∃ t, exec .ret s = .next t ∧ t.pc = s.stack[j.val] ∧ t.sp.val = j.val ∧
      t = { s with sp := t.sp, pc := t.pc } ∧ SameRegistersExcept s t [] ∧ SameMemoryOutside s t 0 0) ∧
    (s.sp.val = 0 → exec .ret s = .next { s with fault := some (.stackUnderflow s.pc 0x00EE) })

/-- A call followed by a return continues at the instruction after the call, with the stack pointer as before (R104, R106). -/
def Obligations.ReturnUndoesCall : Prop :=
  ∀ (nnn : Addr12) (s : State), s.sp.val < 16 →
    ∃ t u, exec (.call nnn) s = .next t ∧ exec .ret t = .next u ∧ u.pc = s.pc + 2 ∧ u.sp = s.sp ∧
      u = { s with stack := u.stack, pc := u.pc }

/-- R107 to R110: SE and SNE, with an immediate and with a register, skip the next instruction on equality and on
inequality; with `x = y` SE always skips and SNE never does. Nothing but `PC` changes. -/
def Obligations.CompareAndSkip : Prop :=
  ∀ (x y : Reg) (kk : Byte) (s : State),
    exec (.seImm x kk) s = .next { s with pc := if s.reg x = kk then s.pc + 4 else s.pc + 2 } ∧
    exec (.sneImm x kk) s = .next { s with pc := if s.reg x = kk then s.pc + 2 else s.pc + 4 } ∧
    exec (.seReg x y) s = .next { s with pc := if s.reg x = s.reg y then s.pc + 4 else s.pc + 2 } ∧
    exec (.sneReg x y) s = .next { s with pc := if s.reg x = s.reg y then s.pc + 2 else s.pc + 4 } ∧
    exec (.seReg x x) s = .next { s with pc := s.pc + 4 } ∧ exec (.sneReg x x) s = .next { s with pc := s.pc + 2 }

/-! ## Register and ALU instructions (41_alu.md R132 to R143) -/

/-- R132, R134: the loads of a register by an immediate and by a register. -/
def Obligations.RegisterLoads : Prop :=
  ∀ (x y : Reg) (kk : Byte) (s : State),
    (∃ t, exec (.ldImm x kk) s = .next t ∧ t.reg x = kk ∧ t.pc = s.pc + 2 ∧ OnlyRegistersChange s t [x]) ∧
    (∃ t, exec (.ldReg x y) s = .next t ∧ t.reg x = s.reg y ∧ t.pc = s.pc + 2 ∧ OnlyRegistersChange s t [x])

/-- R133: ADD with an immediate, modulo 256; `VF` is not changed unless it is the destination, and then holds the sum. -/
def Obligations.AddImmediateWrapsWithoutFlag : Prop :=
  ∀ (x : Reg) (kk : Byte) (s : State), ∃ t, exec (.addImm x kk) s = .next t ∧
    (t.reg x).toNat = ((s.reg x).toNat + kk.toNat) % 256 ∧ t.pc = s.pc + 2 ∧ OnlyRegistersChange s t [x]

/-- R135, R136, R137: OR, AND and XOR, bit by bit, with no flag. -/
def Obligations.LogicalOperationsBitwise : Prop :=
  ∀ (x y : Reg) (s : State),
    (∃ t, exec (.orReg x y) s = .next t ∧ (∀ k, (t.reg x).getLsbD k = ((s.reg x).getLsbD k || (s.reg y).getLsbD k)) ∧
      t.pc = s.pc + 2 ∧ OnlyRegistersChange s t [x]) ∧
    (∃ t, exec (.andReg x y) s = .next t ∧ (∀ k, (t.reg x).getLsbD k = ((s.reg x).getLsbD k && (s.reg y).getLsbD k)) ∧
      t.pc = s.pc + 2 ∧ OnlyRegistersChange s t [x]) ∧
    (∃ t, exec (.xorReg x y) s = .next t ∧ (∀ k, (t.reg x).getLsbD k = ((s.reg x).getLsbD k ^^ (s.reg y).getLsbD k)) ∧
      t.pc = s.pc + 2 ∧ OnlyRegistersChange s t [x])

/-- R138, R131: ADD with a register; the carry goes to `VF` last, so it wins when `VF` is the destination. -/
def Obligations.AddSetsCarry : Prop :=
  ∀ (x y : Reg) (s : State), ∃ t, exec (.addReg x y) s = .next t ∧
    (x ≠ regF → (t.reg x).toNat = ((s.reg x).toNat + (s.reg y).toNat) % 256) ∧
    (t.reg regF).toNat = (if (s.reg x).toNat + (s.reg y).toNat > 255 then 1 else 0) ∧
    t.pc = s.pc + 2 ∧ OnlyRegistersChange s t [x, regF]

/-- R139, R141, R131: SUB sets `VF` to 1 exactly when `Vx > Vy`, strictly, before the subtraction; SUBN subtracts the other
way and sets the complement of the same comparison. The flag is written last. -/
def Obligations.SubtractionsSetTheComparison : Prop :=
  ∀ (x y : Reg) (s : State),
    (∃ t, exec (.subReg x y) s = .next t ∧
      (x ≠ regF → (t.reg x).toNat = ((s.reg x).toNat + 256 - (s.reg y).toNat) % 256) ∧
      (t.reg regF).toNat = (if (s.reg x).toNat > (s.reg y).toNat then 1 else 0) ∧
      t.pc = s.pc + 2 ∧ OnlyRegistersChange s t [x, regF]) ∧
    (∃ t, exec (.subnReg x y) s = .next t ∧
      (x ≠ regF → (t.reg x).toNat = ((s.reg y).toNat + 256 - (s.reg x).toNat) % 256) ∧
      (t.reg regF).toNat = (if (s.reg x).toNat > (s.reg y).toNat then 0 else 1) ∧
      t.pc = s.pc + 2 ∧ OnlyRegistersChange s t [x, regF])

/-- R140, R142, R131: the shifts read `Vy` under `SHIFT_SOURCE = Vy` and `Vx` under `Vx`; `VF` is the bit shifted out, and is
written last. -/
def Obligations.ShiftsTakeTheBitShiftedOut : Prop :=
  ∀ (x y : Reg) (s : State) (src : Byte), src = (if s.params.shiftSource = .vy then s.reg y else s.reg x) →
    (∃ t, exec (.shrReg x y) s = .next t ∧
      (x ≠ regF → (t.reg x).toNat = src.toNat / 2) ∧ (t.reg regF).toNat = src.toNat % 2 ∧
      t.pc = s.pc + 2 ∧ OnlyRegistersChange s t [x, regF]) ∧
    (∃ t, exec (.shlReg x y) s = .next t ∧
      (x ≠ regF → (t.reg x).toNat = src.toNat * 2 % 256) ∧ (t.reg regF).toNat = src.toNat / 128 ∧
      t.pc = s.pc + 2 ∧ OnlyRegistersChange s t [x, regF])

/-- R143: RND masks the cycle's random byte with `kk`, whatever that byte is. -/
def Obligations.RandomByteIsMasked : Prop :=
  ∀ (x : Reg) (kk : Byte) (s : State), ∃ t, exec (.rnd x kk) s = .next t ∧
    (∀ k, (t.reg x).getLsbD k = (s.rand.getLsbD k && kk.getLsbD k)) ∧ t.pc = s.pc + 2 ∧ OnlyRegistersChange s t [x]

/-! ## Address register and memory (42_index_memory.md R160 to R165) -/

/-- R160, R161, R162: the three instructions that write `I`, modulo 65536; nothing else changes but `PC`. -/
def Obligations.AddressRegisterWrites : Prop :=
  ∀ (nnn : Addr12) (x : Reg) (s : State),
    (∃ t, exec (.ldI nnn) s = .next t ∧ t.i.toNat = nnn.toNat ∧ t = { s with i := t.i, pc := s.pc + 2 }) ∧
    (∃ t, exec (.addI x) s = .next t ∧ t.i.toNat = (s.i.toNat + (s.reg x).toNat) % 65536 ∧
      t = { s with i := t.i, pc := s.pc + 2 }) ∧
    (∃ t, exec (.ldFont x) s = .next t ∧ t.i.toNat = (s.reg x).toNat % 16 * 5 ∧ t = { s with i := t.i, pc := s.pc + 2 })

/-- R163: LD B stores the hundreds, tens and units digits at `I`, `I+1`, `I+2`; if `I+2` is beyond 0xFFF it raises
AddressFault and writes no digit. The premise is the invariant's canonical form of memory. -/
def Obligations.BcdStoresThreeDigits : Prop :=
  ∀ (x : Reg) (s : State), s.mem.wf →
    (s.i.toNat + 2 ≤ 0xFFF → ∃ t, exec (.ldBcd x) s = .next t ∧
      (t.byteAt s.i.toNat).toNat = (s.reg x).toNat / 100 ∧
      (t.byteAt (s.i.toNat + 1)).toNat = (s.reg x).toNat / 10 % 10 ∧
      (t.byteAt (s.i.toNat + 2)).toNat = (s.reg x).toNat % 10 ∧
      t.pc = s.pc + 2 ∧ OnlyBytesChange s t s.i.toNat 3) ∧
    (s.i.toNat + 2 > 0xFFF → exec (.ldBcd x) s =
      .next { s with fault := some (.addressFault s.pc (some (encode (.ldBcd x))) (max s.i.toNat 0x1000) .write) })

/-- R164: LD [I], Vx stores `V0..Vx` at `I`, ..., `I+x`; if `I+x` is beyond 0xFFF it raises AddressFault and stores
nothing. -/
def Obligations.RegisterBlockStore : Prop :=
  ∀ (x : Reg) (s : State), s.mem.wf →
    (s.i.toNat + x.val ≤ 0xFFF → ∃ t, exec (.ldMemReg x) s = .next t ∧
      (∀ r : Reg, r.val ≤ x.val → t.byteAt (s.i.toNat + r.val) = s.reg r) ∧
      t.pc = s.pc + 2 ∧ OnlyBytesChange s t s.i.toNat (x.val + 1)) ∧
    (s.i.toNat + x.val > 0xFFF → exec (.ldMemReg x) s =
      .next { s with fault := some (.addressFault s.pc (some (encode (.ldMemReg x))) (max s.i.toNat 0x1000) .write) })

/-- R165: LD Vx, [I] loads `V0..Vx` from `I`, ..., `I+x` and leaves the registers above `x` and `I`; if `I+x` is beyond
0xFFF it raises AddressFault and loads nothing. -/
def Obligations.RegisterBlockLoad : Prop :=
  ∀ (x : Reg) (s : State),
    (s.i.toNat + x.val ≤ 0xFFF → ∃ t, exec (.ldRegMem x) s = .next t ∧
      (∀ r : Reg, r.val ≤ x.val → t.reg r = s.byteAt (s.i.toNat + r.val)) ∧
      (∀ r : Reg, x.val < r.val → t.reg r = s.reg r) ∧
      t.pc = s.pc + 2 ∧ t = { s with v := t.v, pc := t.pc } ∧ SameMemoryOutside s t 0 0) ∧
    (s.i.toNat + x.val > 0xFFF → exec (.ldRegMem x) s =
      .next { s with fault := some (.addressFault s.pc (some (encode (.ldRegMem x))) (max s.i.toNat 0x1000) .read) })

/-- R165's inverse law: storing `V0..Vx` and then loading into any register file from the same address gives the stored
values back for indices 0 to `x`. -/
def Obligations.StoreThenLoadRestoresRegisters : Prop :=
  ∀ (x : Reg) (s : State) (w : Vector Byte 16), s.mem.wf → s.i.toNat + x.val ≤ 0xFFF →
    ∃ t u, exec (.ldMemReg x) s = .next t ∧ exec (.ldRegMem x) { t with v := w } = .next u ∧
      (∀ r : Reg, r.val ≤ x.val → u.reg r = s.reg r) ∧ (∀ r : Reg, x.val < r.val → u.reg r = w[r.val])

/-- R65, R272: what a register store writes is what a later fetch from those bytes sees, the byte at the lower address
being the word's high byte. -/
def Obligations.StoredBytesAreFetched : Prop :=
  ∀ (x : Reg) (s t : State) (pc : Word), s.mem.wf → s.i.toNat + x.val ≤ 0xFFF → exec (.ldMemReg x) s = .next t →
    ∀ h : s.i.toNat ≤ pc.toNat ∧ pc.toNat + 1 ≤ s.i.toNat + x.val,
      { t with pc := pc }.fetchWord =
        .ok (s.reg ⟨pc.toNat - s.i.toNat, by omega⟩ ++ s.reg ⟨pc.toNat + 1 - s.i.toNat, by omega⟩)

/-! ## Timers (43_timers.md R182 to R184) -/

/-- R182, R183, R184: reading the delay timer, and writing each timer. -/
def Obligations.TimerInstructions : Prop :=
  ∀ (x : Reg) (s : State),
    (∃ t, exec (.ldRegDt x) s = .next t ∧ t.reg x = s.dt ∧ t.pc = s.pc + 2 ∧ OnlyRegistersChange s t [x]) ∧
    exec (.ldDtReg x) s = .next { s with dt := s.reg x, pc := s.pc + 2 } ∧
    exec (.ldStReg x) s = .next { s with st := s.reg x, pc := s.pc + 2 }

/-- R271: after FX15 set the delay timer to `v`, an FX07 in the next cycle reads `v - 1`, or 0 if `v` is 0. -/
def Obligations.TimerSetThenReadIsOneLess : Prop :=
  ∀ (x y : Reg) (s t u : State), s.AboutToCycle → s.wait = none → s.Fetches (.ldDtReg x) → step s = .next t →
    t.Fetches (.ldRegDt y) → step t = .next u → t.dt = s.reg x ∧ (u.reg y).toNat = (s.reg x).toNat - 1

/-! ## Display and keypad (44_display_keypad.md R191 to R199) -/

/-- R191: CLS turns every pixel off, does not commit, and changes nothing else. -/
def Obligations.ClearTurnsEveryPixelOff : Prop :=
  ∀ s : State, ∃ t, exec .cls s = .next t ∧ (∀ q c, t.fb.pixel q c = false) ∧ t = { s with fb := t.fb, pc := s.pc + 2 }

/-- R192 to R195: DRW, for both values of `DRAW_EDGE`. A pixel is toggled exactly when a set bit of the sprite lands on it;
`VF` is 1 if a set pixel was turned off, else 0; one commit; `PC + 2`. If the sprite leaves the Address Space it raises
AddressFault and nothing is drawn. With `n = 0` no pixel changes. That no pixel is toggled twice in one draw is R192's corner case, which the
spec marks as derived. -/
def Obligations.DrawTogglesTheSprite : Prop :=
  ∀ (x y : Reg) (n : BitVec 4) (s : State),
    (n = 0 ∨ s.i.toNat + n.toNat - 1 ≤ 0xFFF → ∃ t, exec (.drw x y n) s = .next t ∧
      (∀ c q, q < 32 → c < 64 →
        (s.SpriteCovers x y n.toNat c q → t.fb.pixel q c = !(s.fb.pixel q c)) ∧
        (¬ s.SpriteCovers x y n.toNat c q → t.fb.pixel q c = s.fb.pixel q c)) ∧
      ((∃ c q, s.SpriteCovers x y n.toNat c q ∧ s.fb.pixel q c = true) → t.reg regF = 1) ∧
      ((∀ c q, s.SpriteCovers x y n.toNat c q → s.fb.pixel q c = false) → t.reg regF = 0) ∧
      t.commits = s.commits + 1 ∧ t.pc = s.pc + 2 ∧
      t = { s with fb := t.fb, v := t.v, commits := t.commits, pc := t.pc } ∧
      SameRegistersExcept s t [regF] ∧ SameMemoryOutside s t 0 0) ∧
    (n ≠ 0 → s.i.toNat + n.toNat - 1 > 0xFFF → exec (.drw x y n) s =
      .next { s with fault := some (.addressFault s.pc (some (encode (.drw x y n))) (max s.i.toNat 0x1000) .read) })

/-- R192: drawing the same sprite at the same place twice (the coordinates after the first draw are those before it, which
only a coordinate in `VF` can break) restores the surface, and the second draw reports a collision if
some set bit of the sprite landed on a pixel that was off. (Where every such pixel was on, the first draw turns them all
off and the second finds no set pixel: the rule's corner case does not say so. NOTES.md.) -/
def Obligations.DrawTwiceRestoresTheSurface : Prop :=
  ∀ (x y : Reg) (n : BitVec 4) (s t u : State), (n = 0 ∨ s.i.toNat + n.toNat - 1 ≤ 0xFFF) →
    exec (.drw x y n) s = .next t → t.reg x = s.reg x → t.reg y = s.reg y → exec (.drw x y n) t = .next u →
    (∀ c q, u.fb.pixel q c = s.fb.pixel q c) ∧ u.commits = s.commits + 2 ∧
    ((∃ c q, s.SpriteCovers x y n.toNat c q ∧ s.fb.pixel q c = false) → u.reg regF = 1) ∧
    ((∀ c q, s.SpriteCovers x y n.toNat c q → s.fb.pixel q c = true) → u.reg regF = 0)

/-- R197, R198, R227: SKP and SKNP skip on the state of the key that `Vx` numbers; a number above 15 raises KeyIndexFault
and nothing else changes. -/
def Obligations.KeySkips : Prop :=
  ∀ (x : Reg) (s : State),
    ((s.reg x).toNat ≤ 15 →
      exec (.skp x) s =
        .next { s with pc := if s.keys.getLsbD (s.reg x).toNat = true then s.pc + 4 else s.pc + 2 } ∧
      exec (.sknp x) s =
        .next { s with pc := if s.keys.getLsbD (s.reg x).toNat = true then s.pc + 2 else s.pc + 4 }) ∧
    ((s.reg x).toNat > 15 →
      exec (.skp x) s = .next { s with fault := some (.keyIndexFault s.pc (encode (.skp x)) (s.reg x)) } ∧
      exec (.sknp x) s = .next { s with fault := some (.keyIndexFault s.pc (encode (.sknp x)) (s.reg x)) })

/-- R199: LD Vx, K enters the wait for a key and advances; no register changes in its cycle. -/
def Obligations.KeyWaitBegins : Prop :=
  ∀ (x : Reg) (s : State), exec (.ldRegKey x) s = .next { s with wait := some x, pc := s.pc + 2 }
end

