-- ==== Sys2Proof/Laws/Memory.lean ====
section
/-! SUPPORT. The laws of memory: a read after a write, that a write leaves every other byte alone, that every memory
operation keeps the canonical form, and when an access is out of bounds. -/

namespace Sys2Proof.Machine

/-! ### Bounds -/

theorem outOfBounds_eq_none {a n : Nat} : outOfBounds a n = none ↔ n = 0 ∨ a + n ≤ 4096 := by
  unfold outOfBounds; split <;> simp <;> omega

theorem outOfBounds_eq_some {a n b : Nat} :
    outOfBounds a n = some b ↔ n ≠ 0 ∧ a + n > 4096 ∧ b = max a 0x1000 := by
  unfold outOfBounds; split <;> simp <;> omega

/-! ### One byte -/

theorem Memory.wf_nil : Memory.wf [] := by simp [Memory.wf]

theorem Memory.wf_cons {k : Nat} {b : Byte} {m : Memory} :
    Memory.wf ((k, b) :: m) ↔
      (∀ c ∈ m, k < c.1) ∧ k < 4096 ∧ b ≠ Memory.unlisted k ∧ Memory.wf m := by
  simp [Memory.wf, List.pairwise_cons]; tauto

/-- An address below every listed one is not listed. -/
theorem Memory.read_eq_unlisted {m : Memory} {a : Nat} (h : ∀ c ∈ m, a < c.1) : m.read a = Memory.unlisted a := by
  induction m with
  | nil => rfl
  | cons c m ih =>
    have hc := h c (by simp)
    simp [Memory.read, Nat.ne_of_gt hc, ih fun d hd => h d (by simp [hd])]

theorem Memory.read_write_ne {m : Memory} {a c : Nat} {b : Byte} (h : c ≠ a) : (m.write a b).read c = m.read c := by
  induction m with
  | nil => simp only [Memory.write]; split <;> simp [Memory.read, Ne.symm h]
  | cons d m ih =>
    obtain ⟨k, e⟩ := d
    simp only [Memory.write]
    split
    · simp [Memory.read, ih]
    · split
      · subst_vars; split <;> simp [Memory.read, Ne.symm h]
      · split <;> simp [Memory.read, Ne.symm h]

theorem Memory.read_write_same {m : Memory} {a : Nat} {b : Byte} (h : m.wf) : (m.write a b).read a = b := by
  induction m with
  | nil => simp only [Memory.write]; split <;> simp_all [Memory.read]
  | cons d m ih =>
    obtain ⟨k, e⟩ := d
    obtain ⟨hk, _, _, hm⟩ := Memory.wf_cons.1 h
    simp only [Memory.write]
    split
    · rename_i hlt; simp [Memory.read, Nat.ne_of_lt hlt, ih hm]
    · split
      · subst_vars; split
        · rename_i hb; rw [hb, Memory.read_eq_unlisted hk]
        · simp [Memory.read]
      · rename_i h1 h2
        split
        · rename_i hb
          have hall : ∀ c ∈ (k, e) :: m, a < c.1 := by
            intro c hc
            rcases List.mem_cons.1 hc with rfl | hc
            · simp; omega
            · have := hk c hc; omega
          rw [hb, Memory.read_eq_unlisted hall]
        · simp [Memory.read]

theorem Memory.mem_write {m : Memory} {a : Nat} {b : Byte} {c : Host.Cell} (h : c ∈ m.write a b) : c.1 = a ∨ c ∈ m := by
  induction m with
  | nil => simp only [Memory.write] at h; split at h <;> simp_all
  | cons d m ih =>
    obtain ⟨k, e⟩ := d
    simp only [Memory.write] at h
    split at h
    · rcases List.mem_cons.1 h with rfl | h
      · simp
      · rcases ih h with h | h <;> simp [h]
    · split at h <;> split at h
      · exact .inr (by simp [h])
      · rcases List.mem_cons.1 h with rfl | h
        · exact .inl rfl
        · exact .inr (by simp [h])
      · exact .inr h
      · rcases List.mem_cons.1 h with rfl | h
        · exact .inl rfl
        · exact .inr h

theorem Memory.wf_write {m : Memory} {a : Nat} {b : Byte} (h : m.wf) (ha : a < 4096) : (m.write a b).wf := by
  induction m with
  | nil => simp only [Memory.write]; split <;> simp_all [Memory.wf]
  | cons d m ih =>
    obtain ⟨k, e⟩ := d
    obtain ⟨hk, hk', he, hm⟩ := Memory.wf_cons.1 h
    simp only [Memory.write]
    split
    · rename_i hlt
      refine Memory.wf_cons.2 ⟨fun c hc => ?_, hk', he, ih hm⟩
      rcases Memory.mem_write hc with h | h
      · omega
      · exact hk c h
    · split
      · subst_vars; split
        · exact hm
        · rename_i hb; exact Memory.wf_cons.2 ⟨hk, hk', hb, hm⟩
      · split
        · exact h
        · rename_i h1 h2 hb
          refine Memory.wf_cons.2 ⟨fun c hc => ?_, ha, hb, h⟩
          rcases List.mem_cons.1 hc with rfl | hc
          · simp; omega
          · have := hk c hc; omega

/-! ### Blocks -/

theorem Memory.read_writeBlock_outside {m : Memory} {a c : Nat} {bs : List Byte} (h : ¬ (a ≤ c ∧ c < a + bs.length)) :
    (m.writeBlock a bs).read c = m.read c := by
  induction bs generalizing m a with
  | nil => rfl
  | cons b bs ih =>
    simp only [List.length_cons] at h
    rw [Memory.writeBlock, ih (by omega), Memory.read_write_ne (by omega)]

theorem Memory.wf_writeBlock {m : Memory} {a : Nat} {bs : List Byte} (h : m.wf) (ha : a + bs.length ≤ 4096) :
    (m.writeBlock a bs).wf := by
  induction bs generalizing m a with
  | nil => exact h
  | cons b bs ih =>
    simp only [List.length_cons] at ha
    exact ih (Memory.wf_write h (by omega)) (by omega)

theorem Memory.read_writeBlock {m : Memory} {a k : Nat} {bs : List Byte} (h : m.wf) (ha : a + bs.length ≤ 4096)
    (hk : k < bs.length) : (m.writeBlock a bs).read (a + k) = bs[k] := by
  induction bs generalizing m a k with
  | nil => simp at hk
  | cons b bs ih =>
    simp only [List.length_cons] at ha hk
    rw [Memory.writeBlock]
    cases k with
    | zero =>
      rw [Memory.read_writeBlock_outside (by omega)]
      exact Memory.read_write_same h
    | succ k =>
      have := ih (a := a + 1) (k := k) (Memory.wf_write (a := a) (b := b) h (by omega)) (by omega) (by omega)
      rw [show a + (k + 1) = a + 1 + k by omega, this]; rfl

@[simp] theorem Memory.readBlock_length (m : Memory) (a n : Nat) : (m.readBlock a n).length = n := by
  simp [Memory.readBlock]

theorem Memory.readBlock_getElem? (m : Memory) {a n k : Nat} (h : k < n) :
    (m.readBlock a n)[k]? = some (m.read (a + k)) := by
  simp [Memory.readBlock, h]

theorem Memory.unlisted_above_font {a : Nat} (h : 0x50 ≤ a) : Memory.unlisted a = 0 := by
  have : fontTable.length = 80 := by decide
  rw [Memory.unlisted, List.getD_eq_default _ _ (by omega)]

end Sys2Proof.Machine
end

