-- ==== Sys2Proof/Laws/State.lean ====
section
/-! SUPPORT. One lemma per field per update of the state, true by rfl: no later proof unfolds a record update. -/

namespace Sys2Proof.Machine

variable (s : State)

/-! ### setReg -/

@[simp] theorem setReg_v (r : Reg) (b : Byte) : (s.setReg r b).v = s.v.set r.val b := rfl
@[simp] theorem setReg_i (r : Reg) (b : Byte) : (s.setReg r b).i = s.i := rfl
@[simp] theorem setReg_pc (r : Reg) (b : Byte) : (s.setReg r b).pc = s.pc := rfl
@[simp] theorem setReg_stack (r : Reg) (b : Byte) : (s.setReg r b).stack = s.stack := rfl
@[simp] theorem setReg_sp (r : Reg) (b : Byte) : (s.setReg r b).sp = s.sp := rfl
@[simp] theorem setReg_dt (r : Reg) (b : Byte) : (s.setReg r b).dt = s.dt := rfl
@[simp] theorem setReg_st (r : Reg) (b : Byte) : (s.setReg r b).st = s.st := rfl
@[simp] theorem setReg_mem (r : Reg) (b : Byte) : (s.setReg r b).mem = s.mem := rfl
@[simp] theorem setReg_fb (r : Reg) (b : Byte) : (s.setReg r b).fb = s.fb := rfl
@[simp] theorem setReg_commits (r : Reg) (b : Byte) : (s.setReg r b).commits = s.commits := rfl
@[simp] theorem setReg_prevKeys (r : Reg) (b : Byte) : (s.setReg r b).prevKeys = s.prevKeys := rfl
@[simp] theorem setReg_wait (r : Reg) (b : Byte) : (s.setReg r b).wait = s.wait := rfl
@[simp] theorem setReg_fault (r : Reg) (b : Byte) : (s.setReg r b).fault = s.fault := rfl
@[simp] theorem setReg_keys (r : Reg) (b : Byte) : (s.setReg r b).keys = s.keys := rfl
@[simp] theorem setReg_runState (r : Reg) (b : Byte) : (s.setReg r b).runState = s.runState := rfl
@[simp] theorem setReg_pending (r : Reg) (b : Byte) : (s.setReg r b).pending = s.pending := rfl
@[simp] theorem setReg_replies (r : Reg) (b : Byte) : (s.setReg r b).replies = s.replies := rfl
@[simp] theorem setReg_inputs (r : Reg) (b : Byte) : (s.setReg r b).inputs = s.inputs := rfl
@[simp] theorem setReg_draws (r : Reg) (b : Byte) : (s.setReg r b).draws = s.draws := rfl
@[simp] theorem setReg_rand (r : Reg) (b : Byte) : (s.setReg r b).rand = s.rand := rfl
@[simp] theorem setReg_params (r : Reg) (b : Byte) : (s.setReg r b).params = s.params := rfl
@[simp] theorem setReg_byteAt (r : Reg) (b : Byte) (k : Nat) : (s.setReg r b).byteAt k = s.byteAt k := rfl

/-! ### setPc -/

@[simp] theorem setPc_v (w : Word) : (s.setPc w).v = s.v := rfl
@[simp] theorem setPc_i (w : Word) : (s.setPc w).i = s.i := rfl
@[simp] theorem setPc_pc (w : Word) : (s.setPc w).pc = w := rfl
@[simp] theorem setPc_stack (w : Word) : (s.setPc w).stack = s.stack := rfl
@[simp] theorem setPc_sp (w : Word) : (s.setPc w).sp = s.sp := rfl
@[simp] theorem setPc_dt (w : Word) : (s.setPc w).dt = s.dt := rfl
@[simp] theorem setPc_st (w : Word) : (s.setPc w).st = s.st := rfl
@[simp] theorem setPc_mem (w : Word) : (s.setPc w).mem = s.mem := rfl
@[simp] theorem setPc_fb (w : Word) : (s.setPc w).fb = s.fb := rfl
@[simp] theorem setPc_commits (w : Word) : (s.setPc w).commits = s.commits := rfl
@[simp] theorem setPc_prevKeys (w : Word) : (s.setPc w).prevKeys = s.prevKeys := rfl
@[simp] theorem setPc_wait (w : Word) : (s.setPc w).wait = s.wait := rfl
@[simp] theorem setPc_fault (w : Word) : (s.setPc w).fault = s.fault := rfl
@[simp] theorem setPc_keys (w : Word) : (s.setPc w).keys = s.keys := rfl
@[simp] theorem setPc_runState (w : Word) : (s.setPc w).runState = s.runState := rfl
@[simp] theorem setPc_pending (w : Word) : (s.setPc w).pending = s.pending := rfl
@[simp] theorem setPc_replies (w : Word) : (s.setPc w).replies = s.replies := rfl
@[simp] theorem setPc_inputs (w : Word) : (s.setPc w).inputs = s.inputs := rfl
@[simp] theorem setPc_draws (w : Word) : (s.setPc w).draws = s.draws := rfl
@[simp] theorem setPc_rand (w : Word) : (s.setPc w).rand = s.rand := rfl
@[simp] theorem setPc_params (w : Word) : (s.setPc w).params = s.params := rfl
@[simp] theorem setPc_reg (w : Word) (q : Reg) : (s.setPc w).reg q = s.reg q := rfl
@[simp] theorem setPc_byteAt (w : Word) (k : Nat) : (s.setPc w).byteAt k = s.byteAt k := rfl

/-! ### advance -/

@[simp] theorem advance_v : (s.advance).v = s.v := rfl
@[simp] theorem advance_i : (s.advance).i = s.i := rfl
@[simp] theorem advance_pc : (s.advance).pc = s.pc + 2 := rfl
@[simp] theorem advance_stack : (s.advance).stack = s.stack := rfl
@[simp] theorem advance_sp : (s.advance).sp = s.sp := rfl
@[simp] theorem advance_dt : (s.advance).dt = s.dt := rfl
@[simp] theorem advance_st : (s.advance).st = s.st := rfl
@[simp] theorem advance_mem : (s.advance).mem = s.mem := rfl
@[simp] theorem advance_fb : (s.advance).fb = s.fb := rfl
@[simp] theorem advance_commits : (s.advance).commits = s.commits := rfl
@[simp] theorem advance_prevKeys : (s.advance).prevKeys = s.prevKeys := rfl
@[simp] theorem advance_wait : (s.advance).wait = s.wait := rfl
@[simp] theorem advance_fault : (s.advance).fault = s.fault := rfl
@[simp] theorem advance_keys : (s.advance).keys = s.keys := rfl
@[simp] theorem advance_runState : (s.advance).runState = s.runState := rfl
@[simp] theorem advance_pending : (s.advance).pending = s.pending := rfl
@[simp] theorem advance_replies : (s.advance).replies = s.replies := rfl
@[simp] theorem advance_inputs : (s.advance).inputs = s.inputs := rfl
@[simp] theorem advance_draws : (s.advance).draws = s.draws := rfl
@[simp] theorem advance_rand : (s.advance).rand = s.rand := rfl
@[simp] theorem advance_params : (s.advance).params = s.params := rfl
@[simp] theorem advance_reg (q : Reg) : (s.advance).reg q = s.reg q := rfl
@[simp] theorem advance_byteAt (k : Nat) : (s.advance).byteAt k = s.byteAt k := rfl

/-! ### skipIf -/

@[simp] theorem skipIf_v (c : Bool) : (s.skipIf c).v = s.v := rfl
@[simp] theorem skipIf_i (c : Bool) : (s.skipIf c).i = s.i := rfl
@[simp] theorem skipIf_pc (c : Bool) : (s.skipIf c).pc = if c then s.pc + 4 else s.pc + 2 := rfl
@[simp] theorem skipIf_stack (c : Bool) : (s.skipIf c).stack = s.stack := rfl
@[simp] theorem skipIf_sp (c : Bool) : (s.skipIf c).sp = s.sp := rfl
@[simp] theorem skipIf_dt (c : Bool) : (s.skipIf c).dt = s.dt := rfl
@[simp] theorem skipIf_st (c : Bool) : (s.skipIf c).st = s.st := rfl
@[simp] theorem skipIf_mem (c : Bool) : (s.skipIf c).mem = s.mem := rfl
@[simp] theorem skipIf_fb (c : Bool) : (s.skipIf c).fb = s.fb := rfl
@[simp] theorem skipIf_commits (c : Bool) : (s.skipIf c).commits = s.commits := rfl
@[simp] theorem skipIf_prevKeys (c : Bool) : (s.skipIf c).prevKeys = s.prevKeys := rfl
@[simp] theorem skipIf_wait (c : Bool) : (s.skipIf c).wait = s.wait := rfl
@[simp] theorem skipIf_fault (c : Bool) : (s.skipIf c).fault = s.fault := rfl
@[simp] theorem skipIf_keys (c : Bool) : (s.skipIf c).keys = s.keys := rfl
@[simp] theorem skipIf_runState (c : Bool) : (s.skipIf c).runState = s.runState := rfl
@[simp] theorem skipIf_pending (c : Bool) : (s.skipIf c).pending = s.pending := rfl
@[simp] theorem skipIf_replies (c : Bool) : (s.skipIf c).replies = s.replies := rfl
@[simp] theorem skipIf_inputs (c : Bool) : (s.skipIf c).inputs = s.inputs := rfl
@[simp] theorem skipIf_draws (c : Bool) : (s.skipIf c).draws = s.draws := rfl
@[simp] theorem skipIf_rand (c : Bool) : (s.skipIf c).rand = s.rand := rfl
@[simp] theorem skipIf_params (c : Bool) : (s.skipIf c).params = s.params := rfl
@[simp] theorem skipIf_reg (c : Bool) (q : Reg) : (s.skipIf c).reg q = s.reg q := rfl
@[simp] theorem skipIf_byteAt (c : Bool) (k : Nat) : (s.skipIf c).byteAt k = s.byteAt k := rfl

/-! ### setI -/

@[simp] theorem setI_v (w : Word) : (s.setI w).v = s.v := rfl
@[simp] theorem setI_i (w : Word) : (s.setI w).i = w := rfl
@[simp] theorem setI_pc (w : Word) : (s.setI w).pc = s.pc := rfl
@[simp] theorem setI_stack (w : Word) : (s.setI w).stack = s.stack := rfl
@[simp] theorem setI_sp (w : Word) : (s.setI w).sp = s.sp := rfl
@[simp] theorem setI_dt (w : Word) : (s.setI w).dt = s.dt := rfl
@[simp] theorem setI_st (w : Word) : (s.setI w).st = s.st := rfl
@[simp] theorem setI_mem (w : Word) : (s.setI w).mem = s.mem := rfl
@[simp] theorem setI_fb (w : Word) : (s.setI w).fb = s.fb := rfl
@[simp] theorem setI_commits (w : Word) : (s.setI w).commits = s.commits := rfl
@[simp] theorem setI_prevKeys (w : Word) : (s.setI w).prevKeys = s.prevKeys := rfl
@[simp] theorem setI_wait (w : Word) : (s.setI w).wait = s.wait := rfl
@[simp] theorem setI_fault (w : Word) : (s.setI w).fault = s.fault := rfl
@[simp] theorem setI_keys (w : Word) : (s.setI w).keys = s.keys := rfl
@[simp] theorem setI_runState (w : Word) : (s.setI w).runState = s.runState := rfl
@[simp] theorem setI_pending (w : Word) : (s.setI w).pending = s.pending := rfl
@[simp] theorem setI_replies (w : Word) : (s.setI w).replies = s.replies := rfl
@[simp] theorem setI_inputs (w : Word) : (s.setI w).inputs = s.inputs := rfl
@[simp] theorem setI_draws (w : Word) : (s.setI w).draws = s.draws := rfl
@[simp] theorem setI_rand (w : Word) : (s.setI w).rand = s.rand := rfl
@[simp] theorem setI_params (w : Word) : (s.setI w).params = s.params := rfl
@[simp] theorem setI_reg (w : Word) (q : Reg) : (s.setI w).reg q = s.reg q := rfl
@[simp] theorem setI_byteAt (w : Word) (k : Nat) : (s.setI w).byteAt k = s.byteAt k := rfl

/-! ### setRegFlag -/

@[simp] theorem setRegFlag_v (x : Reg) (b f : Byte) : (s.setRegFlag x b f).v = (s.v.set x.val b).set 15 f := rfl
@[simp] theorem setRegFlag_i (x : Reg) (b f : Byte) : (s.setRegFlag x b f).i = s.i := rfl
@[simp] theorem setRegFlag_pc (x : Reg) (b f : Byte) : (s.setRegFlag x b f).pc = s.pc := rfl
@[simp] theorem setRegFlag_stack (x : Reg) (b f : Byte) : (s.setRegFlag x b f).stack = s.stack := rfl
@[simp] theorem setRegFlag_sp (x : Reg) (b f : Byte) : (s.setRegFlag x b f).sp = s.sp := rfl
@[simp] theorem setRegFlag_dt (x : Reg) (b f : Byte) : (s.setRegFlag x b f).dt = s.dt := rfl
@[simp] theorem setRegFlag_st (x : Reg) (b f : Byte) : (s.setRegFlag x b f).st = s.st := rfl
@[simp] theorem setRegFlag_mem (x : Reg) (b f : Byte) : (s.setRegFlag x b f).mem = s.mem := rfl
@[simp] theorem setRegFlag_fb (x : Reg) (b f : Byte) : (s.setRegFlag x b f).fb = s.fb := rfl
@[simp] theorem setRegFlag_commits (x : Reg) (b f : Byte) : (s.setRegFlag x b f).commits = s.commits := rfl
@[simp] theorem setRegFlag_prevKeys (x : Reg) (b f : Byte) : (s.setRegFlag x b f).prevKeys = s.prevKeys := rfl
@[simp] theorem setRegFlag_wait (x : Reg) (b f : Byte) : (s.setRegFlag x b f).wait = s.wait := rfl
@[simp] theorem setRegFlag_fault (x : Reg) (b f : Byte) : (s.setRegFlag x b f).fault = s.fault := rfl
@[simp] theorem setRegFlag_keys (x : Reg) (b f : Byte) : (s.setRegFlag x b f).keys = s.keys := rfl
@[simp] theorem setRegFlag_runState (x : Reg) (b f : Byte) : (s.setRegFlag x b f).runState = s.runState := rfl
@[simp] theorem setRegFlag_pending (x : Reg) (b f : Byte) : (s.setRegFlag x b f).pending = s.pending := rfl
@[simp] theorem setRegFlag_replies (x : Reg) (b f : Byte) : (s.setRegFlag x b f).replies = s.replies := rfl
@[simp] theorem setRegFlag_inputs (x : Reg) (b f : Byte) : (s.setRegFlag x b f).inputs = s.inputs := rfl
@[simp] theorem setRegFlag_draws (x : Reg) (b f : Byte) : (s.setRegFlag x b f).draws = s.draws := rfl
@[simp] theorem setRegFlag_rand (x : Reg) (b f : Byte) : (s.setRegFlag x b f).rand = s.rand := rfl
@[simp] theorem setRegFlag_params (x : Reg) (b f : Byte) : (s.setRegFlag x b f).params = s.params := rfl
@[simp] theorem setRegFlag_byteAt (x : Reg) (b f : Byte) (k : Nat) : (s.setRegFlag x b f).byteAt k = s.byteAt k := rfl

/-! ### raise -/

@[simp] theorem raise_v (r : FaultRecord) : (s.raise r).v = s.v := rfl
@[simp] theorem raise_i (r : FaultRecord) : (s.raise r).i = s.i := rfl
@[simp] theorem raise_pc (r : FaultRecord) : (s.raise r).pc = s.pc := rfl
@[simp] theorem raise_stack (r : FaultRecord) : (s.raise r).stack = s.stack := rfl
@[simp] theorem raise_sp (r : FaultRecord) : (s.raise r).sp = s.sp := rfl
@[simp] theorem raise_dt (r : FaultRecord) : (s.raise r).dt = s.dt := rfl
@[simp] theorem raise_st (r : FaultRecord) : (s.raise r).st = s.st := rfl
@[simp] theorem raise_mem (r : FaultRecord) : (s.raise r).mem = s.mem := rfl
@[simp] theorem raise_fb (r : FaultRecord) : (s.raise r).fb = s.fb := rfl
@[simp] theorem raise_commits (r : FaultRecord) : (s.raise r).commits = s.commits := rfl
@[simp] theorem raise_prevKeys (r : FaultRecord) : (s.raise r).prevKeys = s.prevKeys := rfl
@[simp] theorem raise_wait (r : FaultRecord) : (s.raise r).wait = s.wait := rfl
@[simp] theorem raise_fault (r : FaultRecord) : (s.raise r).fault = some r := rfl
@[simp] theorem raise_keys (r : FaultRecord) : (s.raise r).keys = s.keys := rfl
@[simp] theorem raise_runState (r : FaultRecord) : (s.raise r).runState = s.runState := rfl
@[simp] theorem raise_pending (r : FaultRecord) : (s.raise r).pending = s.pending := rfl
@[simp] theorem raise_replies (r : FaultRecord) : (s.raise r).replies = s.replies := rfl
@[simp] theorem raise_inputs (r : FaultRecord) : (s.raise r).inputs = s.inputs := rfl
@[simp] theorem raise_draws (r : FaultRecord) : (s.raise r).draws = s.draws := rfl
@[simp] theorem raise_rand (r : FaultRecord) : (s.raise r).rand = s.rand := rfl
@[simp] theorem raise_params (r : FaultRecord) : (s.raise r).params = s.params := rfl
@[simp] theorem raise_reg (r : FaultRecord) (q : Reg) : (s.raise r).reg q = s.reg q := rfl
@[simp] theorem raise_byteAt (r : FaultRecord) (k : Nat) : (s.raise r).byteAt k = s.byteAt k := rfl

/-! ### storeBytes -/

@[simp] theorem storeBytes_v (a : Nat) (bs : List Byte) : (s.storeBytes a bs).v = s.v := rfl
@[simp] theorem storeBytes_i (a : Nat) (bs : List Byte) : (s.storeBytes a bs).i = s.i := rfl
@[simp] theorem storeBytes_pc (a : Nat) (bs : List Byte) : (s.storeBytes a bs).pc = s.pc := rfl
@[simp] theorem storeBytes_stack (a : Nat) (bs : List Byte) : (s.storeBytes a bs).stack = s.stack := rfl
@[simp] theorem storeBytes_sp (a : Nat) (bs : List Byte) : (s.storeBytes a bs).sp = s.sp := rfl
@[simp] theorem storeBytes_dt (a : Nat) (bs : List Byte) : (s.storeBytes a bs).dt = s.dt := rfl
@[simp] theorem storeBytes_st (a : Nat) (bs : List Byte) : (s.storeBytes a bs).st = s.st := rfl
@[simp] theorem storeBytes_mem (a : Nat) (bs : List Byte) : (s.storeBytes a bs).mem = s.mem.writeBlock a bs := rfl
@[simp] theorem storeBytes_fb (a : Nat) (bs : List Byte) : (s.storeBytes a bs).fb = s.fb := rfl
@[simp] theorem storeBytes_commits (a : Nat) (bs : List Byte) : (s.storeBytes a bs).commits = s.commits := rfl
@[simp] theorem storeBytes_prevKeys (a : Nat) (bs : List Byte) : (s.storeBytes a bs).prevKeys = s.prevKeys := rfl
@[simp] theorem storeBytes_wait (a : Nat) (bs : List Byte) : (s.storeBytes a bs).wait = s.wait := rfl
@[simp] theorem storeBytes_fault (a : Nat) (bs : List Byte) : (s.storeBytes a bs).fault = s.fault := rfl
@[simp] theorem storeBytes_keys (a : Nat) (bs : List Byte) : (s.storeBytes a bs).keys = s.keys := rfl
@[simp] theorem storeBytes_runState (a : Nat) (bs : List Byte) : (s.storeBytes a bs).runState = s.runState := rfl
@[simp] theorem storeBytes_pending (a : Nat) (bs : List Byte) : (s.storeBytes a bs).pending = s.pending := rfl
@[simp] theorem storeBytes_replies (a : Nat) (bs : List Byte) : (s.storeBytes a bs).replies = s.replies := rfl
@[simp] theorem storeBytes_inputs (a : Nat) (bs : List Byte) : (s.storeBytes a bs).inputs = s.inputs := rfl
@[simp] theorem storeBytes_draws (a : Nat) (bs : List Byte) : (s.storeBytes a bs).draws = s.draws := rfl
@[simp] theorem storeBytes_rand (a : Nat) (bs : List Byte) : (s.storeBytes a bs).rand = s.rand := rfl
@[simp] theorem storeBytes_params (a : Nat) (bs : List Byte) : (s.storeBytes a bs).params = s.params := rfl
@[simp] theorem storeBytes_reg (a : Nat) (bs : List Byte) (q : Reg) : (s.storeBytes a bs).reg q = s.reg q := rfl

/-! ### loadRegBlock -/

@[simp] theorem loadRegBlock_i (x : Reg) (a : Nat) : (s.loadRegBlock x a).i = s.i := by simp only [State.loadRegBlock]
@[simp] theorem loadRegBlock_pc (x : Reg) (a : Nat) : (s.loadRegBlock x a).pc = s.pc := by simp only [State.loadRegBlock]
@[simp] theorem loadRegBlock_stack (x : Reg) (a : Nat) : (s.loadRegBlock x a).stack = s.stack := by simp only [State.loadRegBlock]
@[simp] theorem loadRegBlock_sp (x : Reg) (a : Nat) : (s.loadRegBlock x a).sp = s.sp := by simp only [State.loadRegBlock]
@[simp] theorem loadRegBlock_dt (x : Reg) (a : Nat) : (s.loadRegBlock x a).dt = s.dt := by simp only [State.loadRegBlock]
@[simp] theorem loadRegBlock_st (x : Reg) (a : Nat) : (s.loadRegBlock x a).st = s.st := by simp only [State.loadRegBlock]
@[simp] theorem loadRegBlock_mem (x : Reg) (a : Nat) : (s.loadRegBlock x a).mem = s.mem := by simp only [State.loadRegBlock]
@[simp] theorem loadRegBlock_fb (x : Reg) (a : Nat) : (s.loadRegBlock x a).fb = s.fb := by simp only [State.loadRegBlock]
@[simp] theorem loadRegBlock_commits (x : Reg) (a : Nat) : (s.loadRegBlock x a).commits = s.commits := by simp only [State.loadRegBlock]
@[simp] theorem loadRegBlock_prevKeys (x : Reg) (a : Nat) : (s.loadRegBlock x a).prevKeys = s.prevKeys := by simp only [State.loadRegBlock]
@[simp] theorem loadRegBlock_wait (x : Reg) (a : Nat) : (s.loadRegBlock x a).wait = s.wait := by simp only [State.loadRegBlock]
@[simp] theorem loadRegBlock_fault (x : Reg) (a : Nat) : (s.loadRegBlock x a).fault = s.fault := by simp only [State.loadRegBlock]
@[simp] theorem loadRegBlock_keys (x : Reg) (a : Nat) : (s.loadRegBlock x a).keys = s.keys := by simp only [State.loadRegBlock]
@[simp] theorem loadRegBlock_runState (x : Reg) (a : Nat) : (s.loadRegBlock x a).runState = s.runState := by simp only [State.loadRegBlock]
@[simp] theorem loadRegBlock_pending (x : Reg) (a : Nat) : (s.loadRegBlock x a).pending = s.pending := by simp only [State.loadRegBlock]
@[simp] theorem loadRegBlock_replies (x : Reg) (a : Nat) : (s.loadRegBlock x a).replies = s.replies := by simp only [State.loadRegBlock]
@[simp] theorem loadRegBlock_inputs (x : Reg) (a : Nat) : (s.loadRegBlock x a).inputs = s.inputs := by simp only [State.loadRegBlock]
@[simp] theorem loadRegBlock_draws (x : Reg) (a : Nat) : (s.loadRegBlock x a).draws = s.draws := by simp only [State.loadRegBlock]
@[simp] theorem loadRegBlock_rand (x : Reg) (a : Nat) : (s.loadRegBlock x a).rand = s.rand := by simp only [State.loadRegBlock]
@[simp] theorem loadRegBlock_params (x : Reg) (a : Nat) : (s.loadRegBlock x a).params = s.params := by simp only [State.loadRegBlock]
@[simp] theorem loadRegBlock_byteAt (x : Reg) (a : Nat) (k : Nat) : (s.loadRegBlock x a).byteAt k = s.byteAt k := by simp only [State.byteAt, State.loadRegBlock]

/-! ### drawn -/

@[simp] theorem drawn_v (x y : Reg) (n : Nat) : (s.drawn x y n).v = s.v.set 15 (collisionFlag (s.drawSprite x y n).2) := rfl
@[simp] theorem drawn_i (x y : Reg) (n : Nat) : (s.drawn x y n).i = s.i := rfl
@[simp] theorem drawn_pc (x y : Reg) (n : Nat) : (s.drawn x y n).pc = s.pc := rfl
@[simp] theorem drawn_stack (x y : Reg) (n : Nat) : (s.drawn x y n).stack = s.stack := rfl
@[simp] theorem drawn_sp (x y : Reg) (n : Nat) : (s.drawn x y n).sp = s.sp := rfl
@[simp] theorem drawn_dt (x y : Reg) (n : Nat) : (s.drawn x y n).dt = s.dt := rfl
@[simp] theorem drawn_st (x y : Reg) (n : Nat) : (s.drawn x y n).st = s.st := rfl
@[simp] theorem drawn_mem (x y : Reg) (n : Nat) : (s.drawn x y n).mem = s.mem := rfl
@[simp] theorem drawn_fb (x y : Reg) (n : Nat) : (s.drawn x y n).fb = (s.drawSprite x y n).1 := rfl
@[simp] theorem drawn_commits (x y : Reg) (n : Nat) : (s.drawn x y n).commits = s.commits + 1 := rfl
@[simp] theorem drawn_prevKeys (x y : Reg) (n : Nat) : (s.drawn x y n).prevKeys = s.prevKeys := rfl
@[simp] theorem drawn_wait (x y : Reg) (n : Nat) : (s.drawn x y n).wait = s.wait := rfl
@[simp] theorem drawn_fault (x y : Reg) (n : Nat) : (s.drawn x y n).fault = s.fault := rfl
@[simp] theorem drawn_keys (x y : Reg) (n : Nat) : (s.drawn x y n).keys = s.keys := rfl
@[simp] theorem drawn_runState (x y : Reg) (n : Nat) : (s.drawn x y n).runState = s.runState := rfl
@[simp] theorem drawn_pending (x y : Reg) (n : Nat) : (s.drawn x y n).pending = s.pending := rfl
@[simp] theorem drawn_replies (x y : Reg) (n : Nat) : (s.drawn x y n).replies = s.replies := rfl
@[simp] theorem drawn_inputs (x y : Reg) (n : Nat) : (s.drawn x y n).inputs = s.inputs := rfl
@[simp] theorem drawn_draws (x y : Reg) (n : Nat) : (s.drawn x y n).draws = s.draws := rfl
@[simp] theorem drawn_rand (x y : Reg) (n : Nat) : (s.drawn x y n).rand = s.rand := rfl
@[simp] theorem drawn_params (x y : Reg) (n : Nat) : (s.drawn x y n).params = s.params := rfl
@[simp] theorem drawn_byteAt (x y : Reg) (n : Nat) (k : Nat) : (s.drawn x y n).byteAt k = s.byteAt k := rfl

/-! ### beginCycle -/

@[simp] theorem beginCycle_v : (s.beginCycle).v = s.v := rfl
@[simp] theorem beginCycle_i : (s.beginCycle).i = s.i := rfl
@[simp] theorem beginCycle_pc : (s.beginCycle).pc = s.pc := rfl
@[simp] theorem beginCycle_stack : (s.beginCycle).stack = s.stack := rfl
@[simp] theorem beginCycle_sp : (s.beginCycle).sp = s.sp := rfl
@[simp] theorem beginCycle_dt : (s.beginCycle).dt = tick s.dt := rfl
@[simp] theorem beginCycle_st : (s.beginCycle).st = tick s.st := rfl
@[simp] theorem beginCycle_mem : (s.beginCycle).mem = s.mem := rfl
@[simp] theorem beginCycle_fb : (s.beginCycle).fb = s.fb := rfl
@[simp] theorem beginCycle_commits : (s.beginCycle).commits = s.commits := rfl
@[simp] theorem beginCycle_prevKeys : (s.beginCycle).prevKeys = s.prevKeys := rfl
@[simp] theorem beginCycle_wait : (s.beginCycle).wait = s.wait := rfl
@[simp] theorem beginCycle_fault : (s.beginCycle).fault = s.fault := rfl
@[simp] theorem beginCycle_keys : (s.beginCycle).keys = s.nextInput.keys := rfl
@[simp] theorem beginCycle_runState : (s.beginCycle).runState = s.runState := rfl
@[simp] theorem beginCycle_pending : (s.beginCycle).pending = s.pending := rfl
@[simp] theorem beginCycle_replies : (s.beginCycle).replies = s.replies := rfl
@[simp] theorem beginCycle_inputs : (s.beginCycle).inputs = s.inputs.tail := rfl
@[simp] theorem beginCycle_draws : (s.beginCycle).draws = s.draws + 1 := rfl
@[simp] theorem beginCycle_rand : (s.beginCycle).rand = s.nextInput.rand := rfl
@[simp] theorem beginCycle_params : (s.beginCycle).params = s.params := rfl
@[simp] theorem beginCycle_reg (q : Reg) : (s.beginCycle).reg q = s.reg q := rfl
@[simp] theorem beginCycle_byteAt (k : Nat) : (s.beginCycle).byteAt k = s.byteAt k := rfl

/-! ### post -/

@[simp] theorem post_v (c : HostCommand) : (s.post c).v = s.v := rfl
@[simp] theorem post_i (c : HostCommand) : (s.post c).i = s.i := rfl
@[simp] theorem post_pc (c : HostCommand) : (s.post c).pc = s.pc := rfl
@[simp] theorem post_stack (c : HostCommand) : (s.post c).stack = s.stack := rfl
@[simp] theorem post_sp (c : HostCommand) : (s.post c).sp = s.sp := rfl
@[simp] theorem post_dt (c : HostCommand) : (s.post c).dt = s.dt := rfl
@[simp] theorem post_st (c : HostCommand) : (s.post c).st = s.st := rfl
@[simp] theorem post_mem (c : HostCommand) : (s.post c).mem = s.mem := rfl
@[simp] theorem post_fb (c : HostCommand) : (s.post c).fb = s.fb := rfl
@[simp] theorem post_commits (c : HostCommand) : (s.post c).commits = s.commits := rfl
@[simp] theorem post_prevKeys (c : HostCommand) : (s.post c).prevKeys = s.prevKeys := rfl
@[simp] theorem post_wait (c : HostCommand) : (s.post c).wait = s.wait := rfl
@[simp] theorem post_fault (c : HostCommand) : (s.post c).fault = s.fault := rfl
@[simp] theorem post_keys (c : HostCommand) : (s.post c).keys = s.keys := rfl
@[simp] theorem post_runState (c : HostCommand) : (s.post c).runState = s.runState := rfl
@[simp] theorem post_pending (c : HostCommand) : (s.post c).pending = s.pending ++ [c] := rfl
@[simp] theorem post_replies (c : HostCommand) : (s.post c).replies = s.replies := rfl
@[simp] theorem post_inputs (c : HostCommand) : (s.post c).inputs = s.inputs := rfl
@[simp] theorem post_draws (c : HostCommand) : (s.post c).draws = s.draws := rfl
@[simp] theorem post_rand (c : HostCommand) : (s.post c).rand = s.rand := rfl
@[simp] theorem post_params (c : HostCommand) : (s.post c).params = s.params := rfl
@[simp] theorem post_reg (c : HostCommand) (q : Reg) : (s.post c).reg q = s.reg q := rfl
@[simp] theorem post_byteAt (c : HostCommand) (k : Nat) : (s.post c).byteAt k = s.byteAt k := rfl

/-! ### supply -/

@[simp] theorem supply_v (inp : CycleInput) : (s.supply inp).v = s.v := rfl
@[simp] theorem supply_i (inp : CycleInput) : (s.supply inp).i = s.i := rfl
@[simp] theorem supply_pc (inp : CycleInput) : (s.supply inp).pc = s.pc := rfl
@[simp] theorem supply_stack (inp : CycleInput) : (s.supply inp).stack = s.stack := rfl
@[simp] theorem supply_sp (inp : CycleInput) : (s.supply inp).sp = s.sp := rfl
@[simp] theorem supply_dt (inp : CycleInput) : (s.supply inp).dt = s.dt := rfl
@[simp] theorem supply_st (inp : CycleInput) : (s.supply inp).st = s.st := rfl
@[simp] theorem supply_mem (inp : CycleInput) : (s.supply inp).mem = s.mem := rfl
@[simp] theorem supply_fb (inp : CycleInput) : (s.supply inp).fb = s.fb := rfl
@[simp] theorem supply_commits (inp : CycleInput) : (s.supply inp).commits = s.commits := rfl
@[simp] theorem supply_prevKeys (inp : CycleInput) : (s.supply inp).prevKeys = s.prevKeys := rfl
@[simp] theorem supply_wait (inp : CycleInput) : (s.supply inp).wait = s.wait := rfl
@[simp] theorem supply_fault (inp : CycleInput) : (s.supply inp).fault = s.fault := rfl
@[simp] theorem supply_keys (inp : CycleInput) : (s.supply inp).keys = s.keys := rfl
@[simp] theorem supply_runState (inp : CycleInput) : (s.supply inp).runState = s.runState := rfl
@[simp] theorem supply_pending (inp : CycleInput) : (s.supply inp).pending = s.pending := rfl
@[simp] theorem supply_replies (inp : CycleInput) : (s.supply inp).replies = s.replies := rfl
@[simp] theorem supply_inputs (inp : CycleInput) : (s.supply inp).inputs = s.inputs ++ [inp] := rfl
@[simp] theorem supply_draws (inp : CycleInput) : (s.supply inp).draws = s.draws := rfl
@[simp] theorem supply_rand (inp : CycleInput) : (s.supply inp).rand = s.rand := rfl
@[simp] theorem supply_params (inp : CycleInput) : (s.supply inp).params = s.params := rfl
@[simp] theorem supply_reg (inp : CycleInput) (q : Reg) : (s.supply inp).reg q = s.reg q := rfl
@[simp] theorem supply_byteAt (inp : CycleInput) (k : Nat) : (s.supply inp).byteAt k = s.byteAt k := rfl

/-! ### reply -/

@[simp] theorem reply_v (r : HostReply) : (s.reply r).v = s.v := rfl
@[simp] theorem reply_i (r : HostReply) : (s.reply r).i = s.i := rfl
@[simp] theorem reply_pc (r : HostReply) : (s.reply r).pc = s.pc := rfl
@[simp] theorem reply_stack (r : HostReply) : (s.reply r).stack = s.stack := rfl
@[simp] theorem reply_sp (r : HostReply) : (s.reply r).sp = s.sp := rfl
@[simp] theorem reply_dt (r : HostReply) : (s.reply r).dt = s.dt := rfl
@[simp] theorem reply_st (r : HostReply) : (s.reply r).st = s.st := rfl
@[simp] theorem reply_mem (r : HostReply) : (s.reply r).mem = s.mem := rfl
@[simp] theorem reply_fb (r : HostReply) : (s.reply r).fb = s.fb := rfl
@[simp] theorem reply_commits (r : HostReply) : (s.reply r).commits = s.commits := rfl
@[simp] theorem reply_prevKeys (r : HostReply) : (s.reply r).prevKeys = s.prevKeys := rfl
@[simp] theorem reply_wait (r : HostReply) : (s.reply r).wait = s.wait := rfl
@[simp] theorem reply_fault (r : HostReply) : (s.reply r).fault = s.fault := rfl
@[simp] theorem reply_keys (r : HostReply) : (s.reply r).keys = s.keys := rfl
@[simp] theorem reply_runState (r : HostReply) : (s.reply r).runState = s.runState := rfl
@[simp] theorem reply_pending (r : HostReply) : (s.reply r).pending = s.pending := rfl
@[simp] theorem reply_replies (r : HostReply) : (s.reply r).replies = s.replies ++ [r] := rfl
@[simp] theorem reply_inputs (r : HostReply) : (s.reply r).inputs = s.inputs := rfl
@[simp] theorem reply_draws (r : HostReply) : (s.reply r).draws = s.draws := rfl
@[simp] theorem reply_rand (r : HostReply) : (s.reply r).rand = s.rand := rfl
@[simp] theorem reply_params (r : HostReply) : (s.reply r).params = s.params := rfl
@[simp] theorem reply_reg (r : HostReply) (q : Reg) : (s.reply r).reg q = s.reg q := rfl
@[simp] theorem reply_byteAt (r : HostReply) (k : Nat) : (s.reply r).byteAt k = s.byteAt k := rfl

end Sys2Proof.Machine
end

