-- ==== Sys2Proof/Laws/Ops.lean ====
section
/-! SUPPORT. For each shared operation, everything it can do. -/

namespace Sys2Proof.Machine

/-! ### Registers -/

theorem setReg_reg (s : State) (r q : Reg) (b : Byte) : (s.setReg r b).reg q = if q = r then b else s.reg q := by
  simp only [State.reg, setReg_v, Vector.getElem_set, Fin.ext_iff, eq_comm]

@[simp] theorem setReg_reg_same (s : State) (r : Reg) (b : Byte) : (s.setReg r b).reg r = b := by simp [setReg_reg]

theorem setReg_reg_ne (s : State) {r q : Reg} (b : Byte) (h : q ≠ r) : (s.setReg r b).reg q = s.reg q := by
  simp [setReg_reg, h]

theorem setRegFlag_reg (s : State) (x q : Reg) (b f : Byte) :
    (s.setRegFlag x b f).reg q = if q = regF then f else if q = x then b else s.reg q := by
  rw [State.setRegFlag, setReg_reg, setReg_reg]

theorem loadRegBlock_reg (s : State) (x q : Reg) (a : Nat) :
    (s.loadRegBlock x a).reg q = if q.val ≤ x.val then s.byteAt (a + q.val) else s.reg q := by
  simp [State.loadRegBlock, State.reg]

@[simp] theorem regBlock_length (s : State) (x : Reg) : (s.regBlock x).length = x.val + 1 := by
  simp only [State.regBlock, List.length_take, Vector.length_toList]; omega

theorem regBlock_getElem (s : State) {x r : Reg} (h : r.val ≤ x.val) :
    (s.regBlock x)[r.val]'(by simp; omega) = s.reg r := by
  simp [State.regBlock, State.reg]

@[simp] theorem bcdDigits_length (b : Byte) : (bcdDigits b).length = 3 := rfl

/-! ### The stack -/

theorem push_eq_some {s t : State} {w : Word} (h : s.push w = some t) :
    ∃ hs : s.sp.val < 16, t = { s with stack := s.stack.set s.sp.val w, sp := ⟨s.sp.val + 1, by omega⟩ } := by
  unfold State.push at h
  split at h
  · exact ⟨‹_›, (Option.some.inj h).symm⟩
  · cases h

theorem push_of_lt {s : State} {w : Word} (h : s.sp.val < 16) :
    s.push w = some { s with stack := s.stack.set s.sp.val w, sp := ⟨s.sp.val + 1, by omega⟩ } := by
  simp [State.push, h]

theorem push_eq_none {s : State} {w : Word} : s.push w = none ↔ s.sp.val = 16 := by
  unfold State.push; split <;> simp <;> omega

theorem pop_eq_some {s t : State} {w : Word} (h : s.pop = some (w, t)) :
    ∃ hs : 0 < s.sp.val, w = s.stack[s.sp.val - 1] ∧ t = { s with sp := ⟨s.sp.val - 1, by omega⟩ } := by
  unfold State.pop at h
  split at h
  · cases h; exact ⟨‹_›, rfl, rfl⟩
  · cases h

theorem pop_of_pos {s : State} (h : 0 < s.sp.val) :
    s.pop = some (s.stack[s.sp.val - 1], { s with sp := ⟨s.sp.val - 1, by omega⟩ }) := by
  simp [State.pop, h]

theorem pop_eq_none {s : State} : s.pop = none ↔ s.sp.val = 0 := by
  unfold State.pop; split <;> simp <;> omega

/-! ### Accesses, the fetch, and the ends of a cycle -/

/-- A data access either raises AddressFault for its first out-of-bounds byte or takes its effect. -/
theorem accessAtI_cases (s : State) (ins : Instr) (kind : AccessKind) (n : Nat) (done : State) :
    (n ≠ 0 ∧ s.i.toNat + n > 4096 ∧ s.accessAtI ins kind n done =
      s.raise (.addressFault s.pc (some (encode ins)) (max s.i.toNat 0x1000) kind)) ∨
    ((n = 0 ∨ s.i.toNat + n ≤ 4096) ∧ s.accessAtI ins kind n done = done) := by
  unfold State.accessAtI
  split
  · rename_i a h
    obtain ⟨h1, h2, rfl⟩ := outOfBounds_eq_some.1 h
    exact .inl ⟨h1, h2, rfl⟩
  · rename_i h
    exact .inr ⟨outOfBounds_eq_none.1 h, rfl⟩

theorem accessAtI_in_bounds {s : State} {ins : Instr} {kind : AccessKind} {n : Nat} {done : State}
    (h : n = 0 ∨ s.i.toNat + n ≤ 4096) : s.accessAtI ins kind n done = done := by
  rw [State.accessAtI, outOfBounds_eq_none.2 h]

theorem accessAtI_out_of_bounds {s : State} {ins : Instr} {kind : AccessKind} {n : Nat} {done : State}
    (hn : n ≠ 0) (h : s.i.toNat + n > 4096) : s.accessAtI ins kind n done =
      s.raise (.addressFault s.pc (some (encode ins)) (max s.i.toNat 0x1000) kind) := by
  rw [State.accessAtI, outOfBounds_eq_some.2 ⟨hn, h, rfl⟩]

theorem fetchWord_ok {s : State} {w : Word} :
    s.fetchWord = .ok w ↔ s.pc.toNat ≤ 0xFFE ∧ w = wordOfBytes (s.byteAt s.pc.toNat) (s.byteAt (s.pc.toNat + 1)) := by
  unfold State.fetchWord
  split
  · rename_i h; have := outOfBounds_eq_some.1 h; simp; omega
  · rename_i h
    have := outOfBounds_eq_none.1 h
    simp only [Except.ok.injEq, Memory.readWord, State.byteAt]
    constructor
    · rintro rfl; exact ⟨by omega, rfl⟩
    · rintro ⟨_, rfl⟩; rfl

theorem fetchWord_error {s : State} {r : FaultRecord} :
    s.fetchWord = .error r ↔ s.pc.toNat > 0xFFE ∧ r = .addressFault s.pc none (max s.pc.toNat 0x1000) .fetch := by
  unfold State.fetchWord
  split
  · rename_i a h
    obtain ⟨_, h2, rfl⟩ := outOfBounds_eq_some.1 h
    simp only [Except.error.injEq]
    constructor
    · rintro rfl; exact ⟨by omega, rfl⟩
    · rintro ⟨_, rfl⟩; rfl
  · rename_i h; have := outOfBounds_eq_none.1 h; simp; omega

theorem tick_toNat (t : Byte) : (tick t).toNat = t.toNat - 1 := by
  unfold tick
  split
  · subst_vars; rfl
  · rename_i h
    have : t.toNat ≠ 0 := fun h' => h (BitVec.eq_of_toNat_eq h')
    simp [BitVec.toNat_sub]; omega

theorem endCycle_unfaulted {s : State} (h : s.fault = none) : s.endCycle = { s with prevKeys := s.keys } := by
  simp [State.endCycle, h]

theorem endCycle_faulted {s : State} {r : FaultRecord} (h : s.fault = some r) : s.endCycle = s := by
  simp [State.endCycle, h]

/-- The end of a cycle changes nothing but `PREV_KEYS`. -/
theorem endCycle_eq (s : State) : s.endCycle = { s with prevKeys := s.endCycle.prevKeys } := by
  unfold State.endCycle; split <;> rfl

/-! ### Keys -/

theorem skipOnKey_of_gt {s : State} {ins : Instr} {x : Reg} {down : Bool} (h : (s.reg x).toNat > 15) :
    s.skipOnKey ins x down = s.raise (.keyIndexFault s.pc (encode ins) (s.reg x)) := by
  rw [State.skipOnKey, if_pos h]

theorem skipOnKey_of_le {s : State} {ins : Instr} {x : Reg} {down : Bool} (h : (s.reg x).toNat ≤ 15) :
    s.skipOnKey ins x down = s.skipIf (keyDown s.keys (s.reg x).toNat == down) := by
  rw [State.skipOnKey, if_neg (by omega)]

theorem lowestNewKey_eq_some {keys prev : BitVec 16} {k : Nat} (h : lowestNewKey keys prev = some k) :
    k < 16 ∧ newlyPressed keys prev k = true ∧ ∀ j < k, newlyPressed keys prev j = false := by
  obtain ⟨hk, pre, post, hl, hpre⟩ := List.find?_eq_some_iff_append.1 h
  have hlen : pre.length = k := by
    have h1 : (List.range 16)[pre.length]? = some k := by rw [hl]; simp
    obtain ⟨h2, h3⟩ := List.getElem?_eq_some_iff.1 h1
    simpa using h3
  have hlt : k < 16 := by
    have : (List.range 16).length = (pre ++ k :: post).length := by rw [hl]
    simp at this; omega
  refine ⟨hlt, hk, fun j hj => ?_⟩
  have h1 : (List.range 16)[j]? = some j := List.getElem?_range (by omega)
  rw [hl, List.getElem?_append_left (by omega)] at h1
  have := hpre j (List.mem_of_getElem? h1)
  simpa using this

theorem lowestNewKey_eq_none {keys prev : BitVec 16} (h : lowestNewKey keys prev = none) :
    ∀ k < 16, newlyPressed keys prev k = false := by
  intro k hk
  have := List.find?_eq_none.1 h k (by simpa using hk)
  simpa using this

end Sys2Proof.Machine
end

