-- ==== Sys2Proof/Laws/Display.lean ====
section
/-! SUPPORT. The laws of the Output Surface: one pixel toggled, every pixel off, drawing a list of cells, and what a
whole draw does. -/

namespace Sys2Proof.Machine

@[simp] theorem pixel_clear (q c : Nat) : Framebuffer.clear.pixel q c = false := by
  unfold Framebuffer.pixel Framebuffer.clear; split <;> simp

theorem pixel_toggle (fb : Framebuffer) {q c q' c' : Nat} (hq : q < 32) (hc : c < 64) :
    (fb.toggle q c).pixel q' c' = if q' = q ∧ c' = c then !(fb.pixel q' c') else fb.pixel q' c' := by
  unfold Framebuffer.pixel Framebuffer.toggle
  simp only [hq, dif_pos]
  by_cases hq' : q' < 32
  · simp only [hq', dif_pos, Vector.getElem_set]
    by_cases h : q = q'
    · subst h
      by_cases h2 : c' = c
      · subst h2; simp [hc]
      · have h3 : ¬ c = c' := fun h => h2 h.symm
        simp [BitVec.getLsbD_twoPow, h2, h3]
    · simp [h, Ne.symm h]
  · simp [hq', show q' ≠ q by omega]

/-- A cell that a pixel lands on is on the surface. -/
theorem place_on_surface {edge : DrawEdge} {px py c q : Nat} (h : place edge px py = some (c, q)) : c < 64 ∧ q < 32 := by
  cases edge <;> simp only [place] at h
  · cases h; omega
  · split at h <;> simp_all

/-- Drawing distinct cells on the surface toggles each of them once and finds a collision exactly when one was set. -/
theorem drawCells_nodup {fb : Framebuffer} {cells : List (Nat × Nat)} (hn : cells.Nodup)
    (hs : ∀ p ∈ cells, p.1 < 64 ∧ p.2 < 32) :
    (∀ q c, (drawCells fb cells).1.pixel q c = if (c, q) ∈ cells then !(fb.pixel q c) else fb.pixel q c) ∧
    ((drawCells fb cells).2 = true ↔ ∃ p ∈ cells, fb.pixel p.2 p.1 = true) := by
  suffices h : ∀ (b : Bool) (fb : Framebuffer),
      (∀ q c, (cells.foldl drawCell (fb, b)).1.pixel q c = if (c, q) ∈ cells then !(fb.pixel q c) else fb.pixel q c) ∧
      ((cells.foldl drawCell (fb, b)).2 = true ↔ b = true ∨ ∃ p ∈ cells, fb.pixel p.2 p.1 = true) by
    simpa [drawCells] using h false fb
  induction cells with
  | nil => intro b fb; simp
  | cons p cells ih =>
    obtain ⟨hp, hn⟩ := List.nodup_cons.1 hn
    have hsurf := hs p (by simp)
    intro b fb
    obtain ⟨h1, h2⟩ := ih hn (fun p' hp' => hs p' (by simp [hp'])) (b || fb.pixel p.2 p.1) (fb.toggle p.2 p.1)
    simp only [List.foldl_cons, drawCell]
    refine ⟨fun q c => ?_, ?_⟩
    · rw [h1, pixel_toggle fb hsurf.2 hsurf.1]
      by_cases hcq : (c, q) = p
      · subst hcq; simp [hp]
      · have : ¬ (q = p.2 ∧ c = p.1) := fun h => hcq (Prod.ext h.2 h.1)
        simp [hcq, this]
    · rw [h2]
      have hpix : ∀ p' ∈ cells, (fb.toggle p.2 p.1).pixel p'.2 p'.1 = fb.pixel p'.2 p'.1 := by
        intro p' hp'
        rw [pixel_toggle fb hsurf.2 hsurf.1, if_neg]
        rintro ⟨h3, h4⟩
        exact hp (by rwa [show p = p' from Prod.ext h4.symm h3.symm])
      simp only [Bool.or_eq_true, List.exists_mem_cons_iff, or_assoc]
      constructor
      · rintro (h | h | ⟨p', hp', h⟩)
        · exact .inl h
        · exact .inr (.inl h)
        · exact .inr (.inr ⟨p', hp', by rwa [hpix p' hp'] at h⟩)
      · rintro (h | h | ⟨p', hp', h⟩)
        · exact .inl h
        · exact .inr (.inl h)
        · exact .inr (.inr ⟨p', hp', by rwa [hpix p' hp']⟩)

/-- `place` gives exactly the cell a pixel lands on. -/
theorem place_eq_some {edge : DrawEdge} {px py c q : Nat} : place edge px py = some (c, q) ↔ Lands edge px py c q := by
  cases edge
  · simp [place, Lands, eq_comm]
  · simp only [place, Lands]
    split <;> simp_all [eq_comm]
    omega

/-- The cells of a sprite are those that some set bit lands on. -/
theorem mem_spriteCells {edge : DrawEdge} {cx cy c q : Nat} {rows : List Byte} :
    (c, q) ∈ spriteCells edge cx cy rows ↔
      ∃ r b, r < rows.length ∧ b < 8 ∧ (rows.getD r 0).getLsbD (7 - b) = true ∧ Lands edge (cx + b) (cy + r) c q := by
  simp only [spriteCells, List.mem_flatMap, List.mem_filterMap, List.mem_range]
  constructor
  · rintro ⟨r, hr, b, hb, h⟩
    split at h
    · exact ⟨r, b, hr, hb, ‹_›, place_eq_some.1 h⟩
    · cases h
  · rintro ⟨r, b, hr, hb, hs, hl⟩
    exact ⟨r, hr, b, hb, by rw [if_pos hs]; exact place_eq_some.2 hl⟩

/-- Two pixels of a sprite of at most 32 rows never land on one cell. -/
theorem lands_inj {edge : DrawEdge} {cx cy r b r' b' c q : Nat} (hr : r < 32) (hr' : r' < 32) (hb : b < 8) (hb' : b' < 8)
    (h : Lands edge (cx + b) (cy + r) c q) (h' : Lands edge (cx + b') (cy + r') c q) : r = r' ∧ b = b' := by
  cases edge <;> simp only [Lands] at h h' <;> omega

/-- No cell is drawn twice. -/
theorem spriteCells_nodup (edge : DrawEdge) (cx cy : Nat) {rows : List Byte} (h : rows.length ≤ 32) :
    (spriteCells edge cx cy rows).Nodup := by
  rw [spriteCells, List.nodup_flatMap]
  refine ⟨fun r hr => ?_, ?_⟩
  · rw [List.Nodup, List.pairwise_filterMap]
    refine List.Pairwise.imp_of_mem (fun {b b'} hb hb' hne => ?_) (List.nodup_range (n := 8))
    rintro ⟨c, q⟩ hc _ hc' rfl
    simp only [List.mem_range] at hr hb hb'
    split at hc <;> split at hc' <;> simp only [place_eq_some, reduceCtorEq] at hc hc'
    exact hne (lands_inj (by omega) (by omega) hb hb' hc hc').2
  · refine List.Pairwise.imp_of_mem (fun {r r'} hr hr' hne => ?_) (List.nodup_range (n := rows.length))
    rw [Function.onFun, List.disjoint_left]
    rintro ⟨c, q⟩ hc hc'
    simp only [List.mem_filterMap, List.mem_range] at hr hr' hc hc'
    obtain ⟨b, hb, hc⟩ := hc
    obtain ⟨b', hb', hc'⟩ := hc'
    split at hc <;> split at hc' <;> simp only [place_eq_some, reduceCtorEq] at hc hc'
    exact hne (lands_inj (by omega) (by omega) hb hb' hc hc').1


/-- The cells a draw toggles are the covered ones. -/
theorem mem_cells_iff (s : State) (x y : Reg) (n c q : Nat) :
    (c, q) ∈ spriteCells s.params.drawEdge (s.reg x).toNat (s.reg y).toNat (s.mem.readBlock s.i.toNat n) ↔
      s.SpriteCovers x y n c q := by
  rw [mem_spriteCells, State.SpriteCovers]
  simp only [Memory.readBlock, List.length_map, List.length_range]
  constructor
  · rintro ⟨r, b, hr, hb, hs, hl⟩
    exact ⟨r, b, hr, hb, by simpa [List.getD, hr, State.byteAt] using hs, hl⟩
  · rintro ⟨r, b, hr, hb, hs, hl⟩
    exact ⟨r, b, hr, hb, by simpa [List.getD, hr, State.byteAt] using hs, hl⟩

/-- A draw toggles exactly the covered pixels and finds a collision exactly when a covered pixel was set. -/
theorem drawSprite_spec (s : State) (x y : Reg) {n : Nat} (hn : n ≤ 32) :
    (∀ q c, s.SpriteCovers x y n c q → (s.drawSprite x y n).1.pixel q c = !(s.fb.pixel q c)) ∧
    (∀ q c, ¬ s.SpriteCovers x y n c q → (s.drawSprite x y n).1.pixel q c = s.fb.pixel q c) ∧
    ((s.drawSprite x y n).2 = true ↔ ∃ c q, s.SpriteCovers x y n c q ∧ s.fb.pixel q c = true) := by
  have hlen : (s.mem.readBlock s.i.toNat n).length ≤ 32 := by simpa [Memory.readBlock] using hn
  obtain ⟨h1, h2⟩ := drawCells_nodup (fb := s.fb)
    (spriteCells_nodup s.params.drawEdge (s.reg x).toNat (s.reg y).toNat hlen) (by
      rintro ⟨c, q⟩ hp
      obtain ⟨r, b, _, _, _, hl⟩ := mem_spriteCells.1 hp
      exact place_on_surface (place_eq_some.2 hl))
  simp only [mem_cells_iff, Prod.exists] at h2
  exact ⟨fun q c h => by rw [State.drawSprite, h1, if_pos ((mem_cells_iff ..).2 h)], fun q c h => by rw [State.drawSprite, h1, if_neg (fun h' => h ((mem_cells_iff ..).1 h'))], h2⟩

end Sys2Proof.Machine
end

