-- ==== Sys2Proof/Laws/Encoding.lean ====
section
/-! SUPPORT. The fields of an encoded word, format by format, and a word put together again from its fields. -/

namespace Sys2Proof

@[simp] theorem regOfBits_regBits (r : Reg) : regOfBits (regBits r) = r := rfl

@[simp] theorem regBits_regOfBits (b : BitVec 4) : regBits (regOfBits b) = b := rfl

section
variable (op : BitVec 4) (x y : Reg) (n : BitVec 4) (kk : Byte) (nnn : Addr12)

@[simp] theorem opField_A12 : opField (encodeA12 op nnn) = op := by
  ext i h; simp [opField, encodeA12]; grind

@[simp] theorem nnnField_A12 : nnnField (encodeA12 op nnn) = nnn := by
  ext i h; simp [nnnField, encodeA12]; grind

@[simp] theorem opField_XKK : opField (encodeXKK op x kk) = op := by
  ext i h; simp [opField, encodeXKK]; grind

@[simp] theorem xField_XKK : xField (encodeXKK op x kk) = regBits x := by
  ext i h; simp [xField, encodeXKK]; grind

@[simp] theorem kkField_XKK : kkField (encodeXKK op x kk) = kk := by
  ext i h; simp [kkField, encodeXKK]; grind

@[simp] theorem opField_XYN : opField (encodeXYN op x y n) = op := by
  ext i h; simp [opField, encodeXYN]; grind

@[simp] theorem xField_XYN : xField (encodeXYN op x y n) = regBits x := by
  ext i h; simp [xField, encodeXYN]; grind

@[simp] theorem yField_XYN : yField (encodeXYN op x y n) = regBits y := by
  ext i h; simp [yField, encodeXYN]; grind

@[simp] theorem nField_XYN : nField (encodeXYN op x y n) = n := by
  ext i h; simp [nField, encodeXYN]; grind

end

/-- A word is the A12 encoding of its fields. -/
theorem encodeA12_fields (w : Word) : encodeA12 (opField w) (nnnField w) = w := by
  ext i h; simp [opField, nnnField, encodeA12]; grind

/-- A word is the XKK encoding of its fields. -/
theorem encodeXKK_fields (w : Word) : encodeXKK (opField w) (regOfBits (xField w)) (kkField w) = w := by
  ext i h; simp [opField, xField, kkField, encodeXKK]; grind

/-- A word is the XYN encoding of its fields. -/
theorem encodeXYN_fields (w : Word) :
    encodeXYN (opField w) (regOfBits (xField w)) (regOfBits (yField w)) (nField w) = w := by
  ext i h; simp [opField, xField, yField, nField, encodeXYN]; grind

/-- Two nibbles of bytes laid out high byte first are read back as the word (20_memory.md R52). -/
theorem wordOfBytes_bytesOfWord (w : Word) : wordOfBytes (w.extractLsb' 8 8) (w.extractLsb' 0 8) = w := by
  ext i h; simp [wordOfBytes]; grind

end Sys2Proof
end

