-- ==== Sys2Proof/Laws/Exec.lean ====
section
/-! SUPPORT. What the meanings, a cycle and a step can answer. -/

namespace Sys2Proof.Machine

/-- Every instruction answers a next state, from every state: it completes or raises a fault, which is a state too. -/
theorem exec_answers_next (i : Instr) (s : State) : ∃ t, exec i s = .next t := by
  cases i <;> try exact ⟨_, rfl⟩
  case ret => simp only [exec, execRet]; split <;> exact ⟨_, rfl⟩
  case call nnn => simp only [exec, execCall]; split <;> exact ⟨_, rfl⟩

/-- An instruction either raises the fault its own check finds, changing nothing else, or it finds none and leaves
`FAULT`. -/
theorem exec_raises_or_completes {i : Instr} {s t : State} (h : exec i s = .next t) :
    (∃ r, Raises s i r ∧ t = s.raise r) ∨ ((∀ r, ¬ Raises s i r) ∧ t.fault = s.fault) := by
  cases i <;> simp only [exec, execSys, execCls, execRet, execJp, execCall, execSeImm, execSneImm, execSeReg,
      execSneReg, execJpV0, execLdImm, execAddImm, execLdReg, execOrReg, execAndReg, execXorReg, execAddReg,
      execSubReg, execShrReg, execSubnReg, execShlReg, execRnd, execLdI, execAddI, execLdFont, execLdBcd,
      execLdMemReg, execLdRegMem, execDrw, execSkp, execSknp, execLdRegDt, execLdRegKey, execLdDtReg, execLdStReg]
      at h
  case ret =>
    split at h
    · rename_i w s' hp; obtain ⟨h1, rfl, rfl⟩ := pop_eq_some hp; cases h; right; refine ⟨?_, rfl⟩
      intro r hr; cases hr with | underflow h => omega | address _ _ _ h => cases h
    · rename_i hp; cases h; left; exact ⟨_, .underflow (pop_eq_none.1 hp), rfl⟩
  case call =>
    split at h
    · rename_i s' hp; obtain ⟨_, rfl⟩ := push_eq_some hp; cases h; right; refine ⟨?_, rfl⟩
      intro r hr; cases hr with | overflow h => omega | address _ _ _ h => cases h
    · rename_i hp; cases h; left; exact ⟨_, .overflow _ (push_eq_none.1 hp), rfl⟩
  case skp x =>
    cases h
    by_cases hx : (s.reg x).toNat > 15
    · left; exact ⟨_, .skp x hx, skipOnKey_of_gt hx⟩
    · right; rw [skipOnKey_of_le (by omega)]; refine ⟨?_, rfl⟩
      intro r hr; cases hr with | skp _ h => omega | address _ _ _ h => cases h
  case sknp x =>
    cases h
    by_cases hx : (s.reg x).toNat > 15
    · left; exact ⟨_, .sknp x hx, skipOnKey_of_gt hx⟩
    · right; rw [skipOnKey_of_le (by omega)]; refine ⟨?_, rfl⟩
      intro r hr; cases hr with | sknp _ h => omega | address _ _ _ h => cases h
  case drw x y n =>
    cases h
    rcases accessAtI_cases s (.drw x y n) .read n.toNat (s.drawn x y n.toNat).advance with ⟨h1, h2, h⟩ | ⟨h1, h⟩
    · left; exact ⟨_, .address _ _ _ rfl h1 h2, h⟩
    · right; refine ⟨?_, by rw [h, advance_fault, State.drawn, setReg_fault]⟩
      intro r hr; cases hr with | address _ _ _ h => cases h; omega
  case ldBcd x =>
    cases h
    rcases accessAtI_cases s (.ldBcd x) .write 3 (s.storeBytes s.i.toNat (bcdDigits (s.reg x))).advance with
        ⟨h1, h2, h⟩ | ⟨h1, h⟩
    · left; exact ⟨_, .address _ _ _ rfl h1 h2, h⟩
    · right; refine ⟨?_, by rw [h, advance_fault, storeBytes_fault]⟩
      intro r hr; cases hr with | address _ _ _ h => cases h; omega
  case ldMemReg x =>
    cases h
    rcases accessAtI_cases s (.ldMemReg x) .write (x.val+1) (s.storeBytes s.i.toNat (s.regBlock x)).advance with
        ⟨h1, h2, h⟩ | ⟨h1, h⟩
    · left; exact ⟨_, .address _ _ _ rfl h1 h2, h⟩
    · right; refine ⟨?_, by rw [h, advance_fault, storeBytes_fault]⟩
      intro r hr; cases hr with | address _ _ _ h => cases h; omega
  case ldRegMem x =>
    cases h
    rcases accessAtI_cases s (.ldRegMem x) .read (x.val+1) (s.loadRegBlock x s.i.toNat).advance with
        ⟨h1, h2, h⟩ | ⟨h1, h⟩
    · left; exact ⟨_, .address _ _ _ rfl h1 h2, h⟩
    · right; refine ⟨?_, by rw [h, advance_fault, loadRegBlock_fault]⟩
      intro r hr; cases hr with | address _ _ _ h => cases h; omega
  all_goals (cases h; right; refine ⟨?_, rfl⟩; intro r hr; cases hr with | address _ _ _ h => cases h)

/-- A cycle that fetches and decodes runs the meaning. -/
theorem fetchAndExecute_ok {s : State} {w : Word} {i : Instr} (hf : s.fetchWord = .ok w) (hd : decodeWord w = .ok i) :
    fetchAndExecute s = exec i s := by
  simp [fetchAndExecute, hf, hd]

/-- The three things a fetching cycle can do: fault at the fetch, fault at the decode, or run the decoded instruction. -/
theorem fetchAndExecute_cases (s : State) :
    (∃ r, s.fetchWord = .error r ∧ fetchAndExecute s = .next (s.raise r)) ∨
    (∃ w e, s.fetchWord = .ok w ∧ decodeWord w = .error e ∧ fetchAndExecute s = .next (s.raise (.decodeFault s.pc w))) ∨
    (∃ w i, s.fetchWord = .ok w ∧ decodeWord w = .ok i ∧ fetchAndExecute s = exec i s) := by
  cases hf : s.fetchWord with
  | error r => exact .inl ⟨r, rfl, by simp [fetchAndExecute, hf]⟩
  | ok w =>
    cases hd : decodeWord w with
    | error e => exact .inr (.inl ⟨w, e, rfl, hd, by simp [fetchAndExecute, hf, hd]⟩)
    | ok i => exact .inr (.inr ⟨w, i, rfl, hd, by simp [fetchAndExecute, hf, hd]⟩)

theorem cycle_waiting {s : State} {x : Reg} (h : s.wait = some x) :
    cycle s = .next (s.beginCycle.waitingStep x).endCycle := by
  simp [cycle, h, finishCycle]

theorem cycle_fetching {s : State} (h : s.wait = none) : cycle s = finishCycle (fetchAndExecute s.beginCycle) := by
  simp [cycle, h]

/-- Every cycle answers a next state. -/
theorem cycle_answers_next (s : State) : ∃ t, cycle s = .next t := by
  cases h : s.wait with
  | some x => exact ⟨_, cycle_waiting h⟩
  | none =>
    rw [cycle_fetching h]
    rcases fetchAndExecute_cases s.beginCycle with ⟨r, _, h⟩ | ⟨w, e, _, _, h⟩ | ⟨w, i, _, _, h⟩
    · exact ⟨_, by rw [h]; rfl⟩
    · exact ⟨_, by rw [h]; rfl⟩
    · obtain ⟨t, ht⟩ := exec_answers_next i s.beginCycle
      exact ⟨_, by rw [h, ht]; rfl⟩

theorem step_of_cycle {s : State} (hf : s.fault = none) (hp : s.pending = []) (hr : s.runState = .running) :
    step s = cycle s := by
  simp [step, hf, driverStep, hp, hr]

theorem step_of_command {s : State} {c : HostCommand} {rest : List HostCommand} (hf : s.fault = none)
    (hp : s.pending = c :: rest) : step s = runCommand c { s with pending := rest } := by
  simp [step, hf, driverStep, hp]

/-- A step that is a cycle, of a Running machine or of the `step` command, is the cycle of the state without that command. -/
theorem step_of_cycleNext {s : State} (h : s.CycleNext) : step s = cycle { s with pending := s.pending.tail } := by
  obtain ⟨hf, ⟨hp, hr⟩ | ⟨hp, hr⟩⟩ := h
  · rw [step_of_cycle hf hp hr, hp]
    congr 1
    cases s; simp_all
  · obtain ⟨rest, hrest⟩ := List.head?_eq_some_iff.1 hp
    rw [step_of_command hf hrest, hrest, runCommand]
    cases hs : s.runState
    · simp
    · exact absurd hs hr
    · simp

end Sys2Proof.Machine
end

