-- ==== Sys2Proof/Laws/PerInstr.lean ====
section
/-! SUPPORT. Statements made per instruction. Family `TableRow`: the encoding of an instruction matches its row of
spec/opcode_table.json (30_encoding.md R84). -/

namespace Sys2Proof.Laws

/-- The encoding of the instruction matches its row's mask and pattern. -/
def TableRow.Statement (i : Instr) : Prop := (opcodeRow i).matchesWord (encode i) = true

/-! ### Masking an encoded word keeps the fixed fields and clears the operands -/

section
variable (op : BitVec 4) (x y : Reg) (n : BitVec 4) (kk : Byte) (nnn : Addr12)

theorem mask_A12 : encodeA12 op nnn &&& 0xF000 = encodeA12 op 0 := by
  ext i h; interval_cases i <;> simp [encodeA12] <;> grind

theorem mask_XKK : encodeXKK op x kk &&& 0xF000 = encodeXKK op 0 0 := by
  ext i h; interval_cases i <;> simp [encodeXKK, regBits] <;> grind

theorem mask_X : encodeXKK op x kk &&& 0xF0FF = encodeXKK op 0 kk := by
  ext i h; interval_cases i <;> simp [encodeXKK, regBits] <;> grind

theorem mask_XY : encodeXYN op x y n &&& 0xF00F = encodeXYN op 0 0 n := by
  ext i h; interval_cases i <;> simp [encodeXYN, regBits] <;> grind

theorem mask_XYN : encodeXYN op x y n &&& 0xF000 = encodeXYN op 0 0 0 := by
  ext i h; interval_cases i <;> simp [encodeXYN, regBits] <;> grind

end

theorem TableRow.sys (nnn : Addr12) : TableRow.Statement (.sys nnn) := by
  rw [Statement, OpcodeRow.matchesWord, opcodeRow, encode, mask_A12]; rfl

theorem TableRow.cls : TableRow.Statement .cls := rfl

theorem TableRow.ret : TableRow.Statement .ret := rfl

theorem TableRow.jp (nnn : Addr12) : TableRow.Statement (.jp nnn) := by
  rw [Statement, OpcodeRow.matchesWord, opcodeRow, encode, mask_A12]; rfl

theorem TableRow.call (nnn : Addr12) : TableRow.Statement (.call nnn) := by
  rw [Statement, OpcodeRow.matchesWord, opcodeRow, encode, mask_A12]; rfl

theorem TableRow.seImm (x : Reg) (kk : Byte) : TableRow.Statement (.seImm x kk) := by
  rw [Statement, OpcodeRow.matchesWord, opcodeRow, encode, mask_XKK]; rfl

theorem TableRow.sneImm (x : Reg) (kk : Byte) : TableRow.Statement (.sneImm x kk) := by
  rw [Statement, OpcodeRow.matchesWord, opcodeRow, encode, mask_XKK]; rfl

theorem TableRow.seReg (x y : Reg) : TableRow.Statement (.seReg x y) := by
  rw [Statement, OpcodeRow.matchesWord, opcodeRow, encode, mask_XY]; rfl

theorem TableRow.ldImm (x : Reg) (kk : Byte) : TableRow.Statement (.ldImm x kk) := by
  rw [Statement, OpcodeRow.matchesWord, opcodeRow, encode, mask_XKK]; rfl

theorem TableRow.addImm (x : Reg) (kk : Byte) : TableRow.Statement (.addImm x kk) := by
  rw [Statement, OpcodeRow.matchesWord, opcodeRow, encode, mask_XKK]; rfl

theorem TableRow.ldReg (x y : Reg) : TableRow.Statement (.ldReg x y) := by
  rw [Statement, OpcodeRow.matchesWord, opcodeRow, encode, mask_XY]; rfl

theorem TableRow.orReg (x y : Reg) : TableRow.Statement (.orReg x y) := by
  rw [Statement, OpcodeRow.matchesWord, opcodeRow, encode, mask_XY]; rfl

theorem TableRow.andReg (x y : Reg) : TableRow.Statement (.andReg x y) := by
  rw [Statement, OpcodeRow.matchesWord, opcodeRow, encode, mask_XY]; rfl

theorem TableRow.xorReg (x y : Reg) : TableRow.Statement (.xorReg x y) := by
  rw [Statement, OpcodeRow.matchesWord, opcodeRow, encode, mask_XY]; rfl

theorem TableRow.addReg (x y : Reg) : TableRow.Statement (.addReg x y) := by
  rw [Statement, OpcodeRow.matchesWord, opcodeRow, encode, mask_XY]; rfl

theorem TableRow.subReg (x y : Reg) : TableRow.Statement (.subReg x y) := by
  rw [Statement, OpcodeRow.matchesWord, opcodeRow, encode, mask_XY]; rfl

theorem TableRow.shrReg (x y : Reg) : TableRow.Statement (.shrReg x y) := by
  rw [Statement, OpcodeRow.matchesWord, opcodeRow, encode, mask_XY]; rfl

theorem TableRow.subnReg (x y : Reg) : TableRow.Statement (.subnReg x y) := by
  rw [Statement, OpcodeRow.matchesWord, opcodeRow, encode, mask_XY]; rfl

theorem TableRow.shlReg (x y : Reg) : TableRow.Statement (.shlReg x y) := by
  rw [Statement, OpcodeRow.matchesWord, opcodeRow, encode, mask_XY]; rfl

theorem TableRow.sneReg (x y : Reg) : TableRow.Statement (.sneReg x y) := by
  rw [Statement, OpcodeRow.matchesWord, opcodeRow, encode, mask_XY]; rfl

theorem TableRow.ldI (nnn : Addr12) : TableRow.Statement (.ldI nnn) := by
  rw [Statement, OpcodeRow.matchesWord, opcodeRow, encode, mask_A12]; rfl

theorem TableRow.jpV0 (nnn : Addr12) : TableRow.Statement (.jpV0 nnn) := by
  rw [Statement, OpcodeRow.matchesWord, opcodeRow, encode, mask_A12]; rfl

theorem TableRow.rnd (x : Reg) (kk : Byte) : TableRow.Statement (.rnd x kk) := by
  rw [Statement, OpcodeRow.matchesWord, opcodeRow, encode, mask_XKK]; rfl

theorem TableRow.drw (x y : Reg) (n : BitVec 4) : TableRow.Statement (.drw x y n) := by
  rw [Statement, OpcodeRow.matchesWord, opcodeRow, encode, mask_XYN]; rfl

theorem TableRow.skp (x : Reg) : TableRow.Statement (.skp x) := by
  rw [Statement, OpcodeRow.matchesWord, opcodeRow, encode, mask_X]; rfl

theorem TableRow.sknp (x : Reg) : TableRow.Statement (.sknp x) := by
  rw [Statement, OpcodeRow.matchesWord, opcodeRow, encode, mask_X]; rfl

theorem TableRow.ldRegDt (x : Reg) : TableRow.Statement (.ldRegDt x) := by
  rw [Statement, OpcodeRow.matchesWord, opcodeRow, encode, mask_X]; rfl

theorem TableRow.ldRegKey (x : Reg) : TableRow.Statement (.ldRegKey x) := by
  rw [Statement, OpcodeRow.matchesWord, opcodeRow, encode, mask_X]; rfl

theorem TableRow.ldDtReg (x : Reg) : TableRow.Statement (.ldDtReg x) := by
  rw [Statement, OpcodeRow.matchesWord, opcodeRow, encode, mask_X]; rfl

theorem TableRow.ldStReg (x : Reg) : TableRow.Statement (.ldStReg x) := by
  rw [Statement, OpcodeRow.matchesWord, opcodeRow, encode, mask_X]; rfl

theorem TableRow.addI (x : Reg) : TableRow.Statement (.addI x) := by
  rw [Statement, OpcodeRow.matchesWord, opcodeRow, encode, mask_X]; rfl

theorem TableRow.ldFont (x : Reg) : TableRow.Statement (.ldFont x) := by
  rw [Statement, OpcodeRow.matchesWord, opcodeRow, encode, mask_X]; rfl

theorem TableRow.ldBcd (x : Reg) : TableRow.Statement (.ldBcd x) := by
  rw [Statement, OpcodeRow.matchesWord, opcodeRow, encode, mask_X]; rfl

theorem TableRow.ldMemReg (x : Reg) : TableRow.Statement (.ldMemReg x) := by
  rw [Statement, OpcodeRow.matchesWord, opcodeRow, encode, mask_X]; rfl

theorem TableRow.ldRegMem (x : Reg) : TableRow.Statement (.ldRegMem x) := by
  rw [Statement, OpcodeRow.matchesWord, opcodeRow, encode, mask_X]; rfl

end Sys2Proof.Laws
end

