-- ==== Sys2Proof/Tests/Slice0.lean ====
section
/-! SUPPORT. The model's own tests. Words and results are those of spec/95_test_vectors.md (the vector's name stands in the
comment) or are written out by hand from the rule named; every test is one step, one decoding or one check. At the end, for
every obligation with hypotheses, states and operands that meet them together. -/

namespace Sys2Proof.Tests

open Sys2Proof.Machine

/-! ## Well-formedness (30_encoding.md R86, R95): the one check, and its neighbours -/

theorem test_sys_0E0_is_refused : (Instr.sys 0x0E0).wellFormed = false := by decide
theorem test_sys_0EE_is_refused : (Instr.sys 0x0EE).wellFormed = false := by decide
theorem test_sys_neighbours_are_accepted :
    (Instr.sys 0x000).wellFormed ∧ (Instr.sys 0x0E1).wellFormed ∧ (Instr.sys 0x0EF).wellFormed ∧
    (Instr.sys 0x1E0).wellFormed ∧ (Instr.sys 0xFFF).wellFormed := by decide
theorem test_others_are_accepted :
    Instr.cls.wellFormed ∧ Instr.ret.wellFormed ∧ (Instr.jp 0x0E0).wellFormed ∧ (Instr.drw 15 0 0).wellFormed := by decide

/-! ## Decoding: words written out bit by bit from the patterns of R84 -/

theorem test_decode_family_0 :
    decodeWord 0b0000000000000000#16 = .ok (.sys 0x000) ∧ decodeWord 0b0000000011100001#16 = .ok (.sys 0x0E1) ∧
    decodeWord 0b0000000011100000#16 = .ok .cls ∧ decodeWord 0b0000000011101110#16 = .ok .ret := by decide

theorem test_decode_addresses :
    decodeWord 0b0001101010111100#16 = .ok (.jp 0xABC) ∧ decodeWord 0b0010011000000001#16 = .ok (.call 0x601) ∧
    decodeWord 0b1010010001010110#16 = .ok (.ldI 0x456) ∧ decodeWord 0b1011001000000011#16 = .ok (.jpV0 0x203) := by decide

theorem test_decode_immediates :
    decodeWord 0b0011001101000010#16 = .ok (.seImm 3 0x42) ∧ decodeWord 0b0100111101000011#16 = .ok (.sneImm 15 0x43) ∧
    decodeWord 0b0110101000000010#16 = .ok (.ldImm 10 0x02) ∧ decodeWord 0b0111111100000101#16 = .ok (.addImm 15 0x05) ∧
    decodeWord 0b1100001100001111#16 = .ok (.rnd 3 0x0F) := by decide

theorem test_decode_family_8_low :
    decodeWord 0b1000101010110000#16 = .ok (.ldReg 10 11) ∧ decodeWord 0b1000101010110001#16 = .ok (.orReg 10 11) ∧
    decodeWord 0b1000101010110010#16 = .ok (.andReg 10 11) ∧ decodeWord 0b1000101010110011#16 = .ok (.xorReg 10 11) ∧
    decodeWord 0b1000101010110100#16 = .ok (.addReg 10 11) := by decide

theorem test_decode_family_8_high :
    decodeWord 0b1000101010110101#16 = .ok (.subReg 10 11) ∧ decodeWord 0b1000101010110110#16 = .ok (.shrReg 10 11) ∧
    decodeWord 0b1000101010110111#16 = .ok (.subnReg 10 11) ∧ decodeWord 0b1000101010111110#16 = .ok (.shlReg 10 11) := by decide

theorem test_decode_compare_and_draw :
    decodeWord 0b0101001001000000#16 = .ok (.seReg 2 4) ∧ decodeWord 0b1001001001000000#16 = .ok (.sneReg 2 4) ∧
    decodeWord 0b1101000100100101#16 = .ok (.drw 1 2 5) := by decide

theorem test_decode_family_E :
    decodeWord 0b1110000110011110#16 = .ok (.skp 1) ∧ decodeWord 0b1110000110100001#16 = .ok (.sknp 1) := by decide

theorem test_decode_family_F :
    decodeWord 0b1111001100000111#16 = .ok (.ldRegDt 3) ∧ decodeWord 0b1111001100001010#16 = .ok (.ldRegKey 3) ∧
    decodeWord 0b1111001000010101#16 = .ok (.ldDtReg 2) ∧ decodeWord 0b1111001000011000#16 = .ok (.ldStReg 2) ∧
    decodeWord 0b1111000000011110#16 = .ok (.addI 0) := by decide

theorem test_decode_family_F_memory :
    decodeWord 0b1111000000101001#16 = .ok (.ldFont 0) ∧ decodeWord 0b1111101000110011#16 = .ok (.ldBcd 10) ∧
    decodeWord 0b1111111101010101#16 = .ok (.ldMemReg 15) ∧ decodeWord 0b1111001001100101#16 = .ok (.ldRegMem 2) := by decide

/-- CY6 to CY10, each family of R87. -/
theorem test_illegal_words :
    decodeWord 0x5121 = .error (.illegal5 0x5121) ∧ decodeWord 0x8AB8 = .error (.illegal8 0x8AB8) ∧
    decodeWord 0x8ABF = .error (.illegal8 0x8ABF) ∧ decodeWord 0x9011 = .error (.illegal9 0x9011) ∧
    decodeWord 0xE0A0 = .error (.illegalE 0xE0A0) ∧ decodeWord 0xE09F = .error (.illegalE 0xE09F) ∧
    decodeWord 0xF000 = .error (.illegalF 0xF000) ∧ decodeWord 0xF01F = .error (.illegalF 0xF01F) ∧
    decodeWord 0xF075 = .error (.illegalF 0xF075) ∧ decodeWord 0xFFFF = .error (.illegalF 0xFFFF) := by decide

/-- R80: the high byte comes first, and what follows the word is left over; a lone byte is no word. -/
theorem test_decode_bytes :
    decodeBytes [0x12, 0x0A, 0xFF] = .ok (.jp 0x20A, [0xFF]) ∧ decodeBytes [0x12] = .error .truncated := by decide

theorem test_table_words :
    decodeTableWord 16 0x00E0 = some .cls ∧ decodeTableWord 16 0xF265 = some (.ldRegMem 2) ∧
    decodeTableWord 16 0xFFFF = none := by decide

/-! ## One cycle on a small state -/

/-- A running machine with the word `w` at `PC` and the key vector `keys` and random byte `rand` for the next cycle. -/
def ready (w : Nat) (s : State) (keys : BitVec 16 := 0) (rand : Byte := 0) : State :=
  { s with inputs := [{ keys := keys, rand := rand }] }.withFetchWord 16 w

/-- The reset state with some registers set. -/
def withRegs (rs : List (Reg × Byte)) : State := rs.foldl (fun s p => s.setReg p.1 p.2) State.reset

/-- The state after one step, where there is one. -/
def after (s : State) : State :=
  match step s with
  | .next t => t
  | .fault _ => s
  | .refused _ => s

/-- CF1, CY11: SYS. -/
theorem test_sys : (after (ready 0x0123 State.reset)).pc = 0x202 := by decide

/-- CF3: RET keeps the popped entry. -/
theorem test_ret :
    let t := after (ready 0x00EE { State.reset with sp := 2, stack := (State.reset.stack.set 0 0x204).set 1 0x300 })
    t.sp = 1 ∧ t.pc = 0x300 ∧ t.stack[1] = 0x300 := by decide

/-- CF2: RET on an empty stack. -/
theorem test_ret_underflow :
    let t := after (ready 0x00EE State.reset)
    t.fault = some (.stackUnderflow 0x200 0x00EE) ∧ t.sp = 0 ∧ t.pc = 0x200 := by decide

/-- CF5: JP. -/
theorem test_jp : (after (ready 0x1FFF State.reset)).pc = 0xFFF := by decide

/-- CF6: CALL into the last entry. -/
theorem test_call :
    let t := after (ready 0x2600 { State.reset with pc := 0x400, sp := 15 })
    t.stack[15] = 0x402 ∧ t.sp = 16 ∧ t.pc = 0x600 := by decide

/-- CF7: CALL on a full stack. -/
theorem test_call_overflow :
    let t := after (ready 0x2700 { State.reset with pc := 0x600, sp := 16 })
    t.fault = some (.stackOverflow 0x600 0x2700) ∧ t.sp = 16 ∧ t.pc = 0x600 := by decide

/-- CF8: SE with an immediate. -/
theorem test_se_imm :
    (after (ready 0x3342 (withRegs [(3, 0x42)]))).pc = 0x204 ∧ (after (ready 0x3343 (withRegs [(3, 0x42)]))).pc = 0x202 := by
  decide

/-- CF10: SNE with an immediate. -/
theorem test_sne_imm :
    (after (ready 0x4342 (withRegs [(3, 0x42)]))).pc = 0x202 ∧ (after (ready 0x4343 (withRegs [(3, 0x42)]))).pc = 0x204 := by
  decide

/-- CF11: SE with a register. -/
theorem test_se_reg :
    (after (ready 0x5240 (withRegs [(2, 9), (4, 9)]))).pc = 0x204 ∧
    (after (ready 0x5240 (withRegs [(2, 9), (4, 8)]))).pc = 0x202 := by decide

/-- CF11: SNE with a register. -/
theorem test_sne_reg :
    (after (ready 0x9240 (withRegs [(2, 9), (4, 9)]))).pc = 0x202 ∧
    (after (ready 0x9240 (withRegs [(2, 9), (4, 8)]))).pc = 0x204 := by decide

/-- CF13: JP V0 does not wrap. -/
theorem test_jp_v0 : (after (ready 0xBFFF (withRegs [(0, 0xFF)]))).pc = 0x10FE := by decide

/-- A1: LD with an immediate. -/
theorem test_ld_imm : (after (ready 0x6AFF State.reset)).reg 10 = 0xFF := by decide

/-- A2: ADD with an immediate wraps and writes no flag. -/
theorem test_add_imm_wraps :
    let t := after (ready 0x7001 (withRegs [(0, 0xFF), (15, 0x77)]))
    t.reg 0 = 0 ∧ t.reg 15 = 0x77 := by decide

/-- A3: ADD with an immediate to `VF`. -/
theorem test_add_imm_vf : (after (ready 0x7F05 (withRegs [(15, 0x10)]))).reg 15 = 0x15 := by decide

/-- A4: LD with a register. -/
theorem test_ld_reg :
    let t := after (ready 0x8010 (withRegs [(1, 0x42), (15, 0x77)]))
    t.reg 0 = 0x42 ∧ t.reg 15 = 0x77 := by decide

/-- A5: OR. -/
theorem test_or :
    let t := after (ready 0x8011 (withRegs [(0, 0x0F), (1, 0xF0), (15, 0x77)]))
    t.reg 0 = 0xFF ∧ t.reg 15 = 0x77 := by decide

/-- A5: AND. -/
theorem test_and :
    let t := after (ready 0x8012 (withRegs [(0, 0x0F), (1, 0xF0), (15, 0x77)]))
    t.reg 0 = 0x00 ∧ t.reg 15 = 0x77 := by decide

/-- A6: XOR of a register with itself. -/
theorem test_xor : (after (ready 0x8223 (withRegs [(2, 0x5A)]))).reg 2 = 0x00 := by decide

/-- A8: ADD with a carry. -/
theorem test_add_carry :
    let t := after (ready 0x8014 (withRegs [(0, 0x80), (1, 0x80), (15, 0x77)]))
    t.reg 0 = 0x00 ∧ t.reg 15 = 1 := by decide

/-- A11: the flag wins when `VF` is the destination. -/
theorem test_add_vf : (after (ready 0x8F14 (withRegs [(15, 0x01), (1, 0x01)]))).reg 15 = 0 := by decide

/-- A14: SUB with a borrow. -/
theorem test_sub_borrow :
    let t := after (ready 0x8015 (withRegs [(0, 3), (1, 5), (15, 0x77)]))
    t.reg 0 = 0xFE ∧ t.reg 15 = 0 := by decide

/-- A15: SUB of equals: the comparison is strict. -/
theorem test_sub_equal :
    let t := after (ready 0x8015 (withRegs [(0, 5), (1, 5), (15, 0x77)]))
    t.reg 0 = 0 ∧ t.reg 15 = 0 := by decide

/-- A18: SUBN with a borrow. -/
theorem test_subn_borrow :
    let t := after (ready 0x8017 (withRegs [(0, 5), (1, 3), (15, 0x77)]))
    t.reg 0 = 0xFE ∧ t.reg 15 = 0 := by decide

/-- A19: SUBN of equals. -/
theorem test_subn_equal :
    let t := after (ready 0x8017 (withRegs [(0, 5), (1, 5), (15, 0x77)]))
    t.reg 0 = 0 ∧ t.reg 15 = 1 := by decide

/-- A20: SHR reads `Vy` and leaves it. -/
theorem test_shr :
    let t := after (ready 0x8016 (withRegs [(0, 0xAA), (1, 0x05)]))
    t.reg 0 = 0x02 ∧ t.reg 15 = 1 ∧ t.reg 1 = 0x05 := by decide

/-- A21: SHR under `SHIFT_SOURCE = Vx`. -/
theorem test_shr_vx :
    let s := { withRegs [(0, 0xAA), (1, 0x05), (15, 0x77)] with params := { shiftSource := .vx, drawEdge := .wrap } }
    let t := after (ready 0x8016 s)
    t.reg 0 = 0x55 ∧ t.reg 15 = 0 := by decide

/-- A22: SHL reads `Vy`. -/
theorem test_shl :
    let t := after (ready 0x801E (withRegs [(0, 0xAA), (1, 0x81)]))
    t.reg 0 = 0x02 ∧ t.reg 15 = 1 := by decide

/-- A23: SHL under `SHIFT_SOURCE = Vx`. -/
theorem test_shl_vx :
    let s := { withRegs [(0, 0xAA), (1, 0x81)] with params := { shiftSource := .vx, drawEdge := .wrap } }
    let t := after (ready 0x801E s)
    t.reg 0 = 0x54 ∧ t.reg 15 = 1 := by decide

/-- A28: RND masks the random byte. -/
theorem test_rnd : (after (ready 0xC30F State.reset 0 0xA7)).reg 3 = 0x07 := by decide

/-- M1: LD I. -/
theorem test_ld_i : (after (ready 0xA456 { State.reset with i := 0xF123 })).i = 0x0456 := by decide

/-- M2, M4: ADD I leaves `VF` and wraps at 65536 only. -/
theorem test_add_i :
    let t := after (ready 0xF01E { withRegs [(0, 1), (15, 0x77)] with i := 0x0FFF })
    t.i = 0x1000 ∧ t.reg 15 = 0x77 ∧ t.fault = none ∧
    (after (ready 0xF01E { withRegs [(0, 2)] with i := 0xFFFF })).i = 0x0001 := by decide

/-- M5: LD F takes the low nibble. -/
theorem test_ld_font :
    (after (ready 0xF029 (withRegs [(0, 0x0F)]))).i = 0x004B ∧ (after (ready 0xF029 (withRegs [(0, 0x1A)]))).i = 0x0032 := by
  decide

/-- M6: LD B. -/
theorem test_ld_bcd :
    let t := after (ready 0xF033 { withRegs [(0, 254)] with i := 0x300 })
    t.byteAt 0x300 = 2 ∧ t.byteAt 0x301 = 5 ∧ t.byteAt 0x302 = 4 := by decide

/-- M8: LD B past the end. -/
theorem test_ld_bcd_out_of_bounds :
    let t := after (ready 0xF033 { withRegs [(0, 42)] with i := 0xFFE })
    t.fault = some (.addressFault 0x200 (some 0xF033) 0x1000 .write) ∧ t.byteAt 0xFFF = 0 ∧ t.pc = 0x200 := by decide

/-- E6: the count of a register store is `x + 1`. -/
theorem test_ld_mem_reg :
    let t := after (ready 0xF255 { withRegs [(0, 0x11), (1, 0x22), (2, 0x33), (3, 0x44)] with i := 0x400 })
    t.byteAt 0x400 = 0x11 ∧ t.byteAt 0x402 = 0x33 ∧ t.byteAt 0x403 = 0 ∧ t.i = 0x400 := by decide

/-- M11: a store that starts beyond memory. -/
theorem test_ld_mem_reg_out_of_bounds :
    (after (ready 0xF055 { State.reset with i := 0x2000 })).fault =
      some (.addressFault 0x200 (some 0xF055) 0x2000 .write) := by decide

/-- M13: the register above `x` keeps its value. -/
theorem test_ld_reg_mem :
    let s := { withRegs [(3, 0x33)] with i := 0x400, mem := [(0x400, 7), (0x401, 8), (0x402, 9)] }
    let t := after (ready 0xF265 s)
    t.reg 0 = 7 ∧ t.reg 2 = 9 ∧ t.reg 3 = 0x33 ∧ t.i = 0x400 := by decide

/-- M15: glyph 0's first byte. -/
theorem test_ld_reg_mem_font : (after (ready 0xF065 State.reset)).reg 0 = 0xF0 := by decide

/-- T3: LD Vx, DT reads the timer after the cycle's decrement. -/
theorem test_ld_reg_dt :
    let t := after (ready 0xF307 { State.reset with dt := 5 })
    t.reg 3 = 4 ∧ t.dt = 4 := by decide

/-- T5: LD DT, Vx writes after the decrement. -/
theorem test_ld_dt_reg : (after (ready 0xF215 { withRegs [(2, 3)] with dt := 0xFF })).dt = 3 := by decide

/-- LD ST, Vx (R184), and T4's decrement of the other timer. -/
theorem test_ld_st_reg :
    let t := after (ready 0xF218 { withRegs [(2, 7)] with dt := 1 })
    t.st = 7 ∧ t.dt = 0 := by decide

/-- G1: CLS leaves `VF` and does not commit. -/
theorem test_cls :
    let t := after (ready 0x00E0 { withRegs [(15, 0x77)] with fb := State.reset.fb.set 3 5 })
    t.fb = Framebuffer.clear ∧ t.reg 15 = 0x77 ∧ t.commits = 0 := by decide

/-- G2: glyph A at (0, 0); bit `c` of a row is column `c`. -/
theorem test_drw_glyph :
    let t := after (ready 0xD115 { State.reset with i := 0x032 })
    t.fb.toList.take 6 = [0b1111, 0b1001, 0b1111, 0b1001, 0b1001, 0] ∧ t.reg 15 = 0 ∧ t.commits = 1 := by decide

/-- G4 and G5: the right edge, wrapped and clipped. -/
theorem test_drw_edges :
    let s := { withRegs [(0, 62), (1, 30)] with i := 0x500, mem := [(0x500, 0xFF)] }
    (after (ready 0xD011 s)).fb[30] = 0xC00000000000003F ∧
    (after (ready 0xD011 { s with params := { shiftSource := .vy, drawEdge := .clip } })).fb[30] = 0xC000000000000000 := by
  decide

/-- K1, K2: SKP. -/
theorem test_skp :
    (after (ready 0xE09E (withRegs [(0, 5)]) 0x0020)).pc = 0x204 ∧ (after (ready 0xE09E (withRegs [(0, 5)]) 0)).pc = 0x202 := by
  decide

/-- K4: a key number above 15. -/
theorem test_skp_index :
    (after (ready 0xE09E (withRegs [(0, 16)]))).fault = some (.keyIndexFault 0x200 0xE09E 16) := by decide

/-- K3: SKNP. -/
theorem test_sknp :
    (after (ready 0xE0A1 (withRegs [(0, 5)]) 0x0020)).pc = 0x202 ∧ (after (ready 0xE0A1 (withRegs [(0, 5)]) 0)).pc = 0x204 := by
  decide

/-- K5. -/
theorem test_sknp_index :
    (after (ready 0xE0A1 (withRegs [(0, 0xFF)]))).fault = some (.keyIndexFault 0x200 0xE0A1 255) := by decide

/-- K7: LD Vx, K with the key already down enters the wait. -/
theorem test_ld_reg_key :
    let t := after (ready 0xF30A State.reset 0x0010)
    t.wait = some 3 ∧ t.pc = 0x202 ∧ t.prevKeys = 0x0010 := by decide

/-- K6, third cycle: the lowest newly pressed key resolves the wait. -/
theorem test_wait_resolves :
    let t := after { ready 0x1200 State.reset 0x0204 with wait := some 3 }
    t.reg 3 = 2 ∧ t.wait = none ∧ t.pc = 0x200 := by decide

/-! ## The cycle and the host -/

/-- CY2, CY3: the fetch's bounds. -/
theorem test_fetch_bounds :
    (after { State.reset with pc := 0xFFF, runState := .running }).fault =
      some (.addressFault 0xFFF none 0x1000 .fetch) ∧
    (after { State.reset with pc := 0x10FE, runState := .running }).fault =
      some (.addressFault 0x10FE none 0x10FE .fetch) := by decide

/-- CY4: an odd `PC` is no fault. -/
theorem test_odd_pc :
    let t := after (ready 0x6007 { State.reset with pc := 0x201 })
    t.reg 0 = 7 ∧ t.pc = 0x203 := by decide

/-- CY5: a decode fault keeps the timer's decrement. -/
theorem test_decode_fault :
    let t := after (ready 0xFFFF { State.reset with dt := 5 })
    t.dt = 4 ∧ t.fault = some (.decodeFault 0x200 0xFFFF) ∧ t.pc = 0x200 := by decide

/-- CY12, H5: a faulted machine has no step, whatever the host has sent. -/
theorem test_faulted_machine_has_no_step :
    step { State.reset with fault := some (.stackOverflow 0x200 0x2200), pending := [.start] } =
      .fault (.halted (.stackOverflow 0x200 0x2200)) := rfl

/-- H1 to H4: `stop`, `step` and `start`. -/
theorem test_host_commands :
    (after { State.reset with pending := [.stop] }).runState = .created ∧
    (after { State.reset with pending := [.step] }).pc = 0x202 ∧
    (after { State.reset with pending := [.step] }).runState = .created ∧
    (after { State.reset with runState := .running, pending := [.step] }).pc = 0x200 ∧
    (after { State.reset with runState := .stopped, pending := [.start] }).runState = .running := by decide

/-- H7: `mem 0xFF0 32` closes the connection; and `mem 0 3` reads the font. -/
theorem test_host_mem :
    (after { State.reset with pending := [.mem 0xFF0 32] }).replies = [.connectionClosed] ∧
    (after { State.reset with pending := [.mem 0 3] }).replies = [.mem [0xF0, 0x90, 0x90]] := by decide

/-! ## Witnesses: for each obligation with hypotheses, terms that meet all of them together, clause by clause -/

/-- A running machine with `LD DT, V2` at `PC`, and `ST` and `DT` not 0. -/
def writesDt : State := ready 0xF215 { withRegs [(2, 9)] with dt := 5, st := 5 }

/-- A running machine waiting for a key, with `keys` supplied for the next cycle and key 4 down in the previous one. -/
def waiting (keys : BitVec 16) : State := { ready 0x1200 State.reset keys with wait := some 3, prevKeys := 0x0010 }

/-- A parked machine. -/
def parked : State := ready 0x1200 State.reset

theorem witness_DecodeInvertsEncode :
    (Instr.sys 0x0DF).wellFormed = true ∧ (Instr.drw 15 15 15).wellFormed = true := by decide

theorem witness_EncodeInvertsDecode :
    decodeWord 0x00E1 = .ok (.sys 0x0E1) ∧ decodeWord 0xFF65 = .ok (.ldRegMem 15) := by decide

theorem witness_PatternsOverlapOnlyAtClsAndRet :
    (opcodeRow (.sys 0)).matchesWord 0x00E0 = true ∧ (opcodeRow .cls).matchesWord 0x00E0 = true ∧
    opcodeRow (.sys 0) ≠ opcodeRow .cls ∧ (opcodeRow .ret).matchesWord 0x00EE = true := by decide

theorem witness_StepRunsDecodedInstruction :
    (writesDt.fault = none ∧ writesDt.wait = none ∧ writesDt.Fetches (.ldDtReg 2) ∧ writesDt.pending = [] ∧
      writesDt.runState = .running) ∧
    (let s := { writesDt with runState := .created, pending := [.step] }
     s.fault = none ∧ s.wait = none ∧ s.Fetches (.ldDtReg 2) ∧ s.pending = .step :: [] ∧ s.runState ≠ .running) :=
  ⟨⟨rfl, rfl, by unfold State.Fetches; decide, rfl, rfl⟩, rfl, rfl, by unfold State.Fetches; decide, rfl, by decide⟩

theorem witness_CycleBeginsWithTimersAndInputs :
    (∃ input rest, writesDt.inputs = input :: rest) ∧ State.reset.inputs = [] := ⟨⟨_, _, rfl⟩, rfl⟩

/-- Both timer statements: a cycle that counts down, the cycle that writes, and a cycle of the `step` command that reads. -/
theorem witness_TimersCountDownEveryCycle :
    parked.CycleNext ∧ (∃ t, step parked = .next t) ∧ writesDt.CycleNext ∧ (∃ t, step writesDt = .next t) ∧
    (let s := { ready 0xF307 State.reset with runState := .stopped, pending := [.step] }
     s.CycleNext ∧ s.wait = none ∧ s.Fetches (.ldRegDt 3) ∧ ∃ t, step s = .next t) :=
  ⟨by decide, ⟨_, rfl⟩, by decide, ⟨_, rfl⟩, by decide, rfl, by unfold State.Fetches; decide, _, rfl⟩

theorem witness_UnfaultedMachineAlwaysSteps : State.reset.fault = none := rfl

theorem witness_FaultedMachineHasNoStep :
    { State.reset with fault := some (.decodeFault 0x200 0xFFFF) }.fault = some (.decodeFault 0x200 0xFFFF) := rfl

/-- Also for CycleFaultsExactlyForItsCause: one state for each cause. -/
theorem witness_FaultingCycleLeavesOnlyItsRecord :
    (ready 0xFFFF State.reset).CycleNext ∧ ∃ t, step (ready 0xFFFF State.reset) = .next t ∧
      t.fault = some (.decodeFault 0x200 0xFFFF) := ⟨by decide, _, rfl, by decide⟩

theorem witness_CycleFaultsExactlyForItsCause_stack :
    (let s := ready 0x2700 { State.reset with sp := 16 }
     s.CycleNext ∧ s.wait = none ∧ ∃ t, step s = .next t ∧ t.fault = some (.stackOverflow 0x200 0x2700)) ∧
    (let s := ready 0x00EE State.reset
     s.CycleNext ∧ s.wait = none ∧ ∃ t, step s = .next t ∧ t.fault = some (.stackUnderflow 0x200 0x00EE)) :=
  ⟨⟨by decide, rfl, _, rfl, by decide⟩, by decide, rfl, _, rfl, by decide⟩

theorem witness_CycleFaultsExactlyForItsCause_access :
    (let s := { State.reset with pc := 0xFFF, runState := .running }
     s.CycleNext ∧ s.wait = none ∧ ∃ t, step s = .next t ∧ t.fault = some (.addressFault 0xFFF none 0x1000 .fetch)) ∧
    (let s := ready 0xD013 { State.reset with i := 0xFFE }
     s.CycleNext ∧ s.wait = none ∧ ∃ t, step s = .next t ∧
       t.fault = some (.addressFault 0x200 (some 0xD013) 0x1000 .read)) ∧
    (let s := ready 0xE09E (withRegs [(0, 16)])
     s.CycleNext ∧ s.wait = none ∧ ∃ t, step s = .next t ∧ t.fault = some (.keyIndexFault 0x200 0xE09E 16)) :=
  ⟨⟨by decide, rfl, _, rfl, by decide⟩, ⟨by decide, rfl, _, rfl, by decide⟩, by decide, rfl, _, rfl, by decide⟩

/-- The lowest and the highest key as the lowest new one, and only a held key. -/
theorem witness_WaitingCycleDeliversLowestNewKey :
    (let s := waiting 0x8011
     s.AboutToCycle ∧ s.wait = some 3 ∧ s.nextInput.keys.getLsbD 0 = true ∧ s.prevKeys.getLsbD 0 = false) ∧
    (let s := waiting 0x8010
     s.nextInput.keys.getLsbD 15 = true ∧ s.prevKeys.getLsbD 15 = false ∧
       ∀ j : Fin 15, s.nextInput.keys.getLsbD j.val = true → s.prevKeys.getLsbD j.val = true) ∧
    (let s := waiting 0x0010
     ∀ j : Fin 16, s.nextInput.keys.getLsbD j.val = true → s.prevKeys.getLsbD j.val = true) := by decide

/-- The key that is held in both cycles is key 4. -/
theorem witness_HeldKeyDoesNotEndTheWait :
    let s := { ready 0xF30A State.reset with inputs := [{ keys := 0x0010, rand := 0 }, { keys := 0x0010, rand := 0 }] }
    s.AboutToCycle ∧ s.wait = none ∧ s.Fetches (.ldRegKey 3) ∧
      ∃ t, step s = .next t ∧
        ∀ k : Fin 16, t.nextInput.keys.getLsbD k.val = true → s.nextInput.keys.getLsbD k.val = true :=
  ⟨by decide, rfl, by unfold State.Fetches; decide, _, rfl, by decide⟩

theorem witness_UnfaultedCycleSamplesItsKeys :
    parked.CycleNext ∧ ∃ t, step parked = .next t ∧ t.fault = none := ⟨by decide, _, rfl, by decide⟩

theorem witness_HostCommands :
    (∃ rest, { State.reset with pending := [.start] }.pending = .start :: rest) ∧
    (∃ rest, { parked with pending := [.stop] }.pending = .stop :: rest ∧ parked.runState = .running ∧ parked.fault = none) ∧
    (∃ rest, { State.reset with pending := [.stop, .step] }.pending = .stop :: rest ∧ State.reset.runState ≠ .running) ∧
    (∃ rest, { State.reset with pending := [.step] }.pending = .step :: rest ∧ State.reset.fault = none) ∧
    (∃ rest, { State.reset with pending := [.cpu] }.pending = .cpu :: rest) :=
  ⟨⟨_, rfl⟩, ⟨_, rfl, rfl, rfl⟩, ⟨_, rfl, by decide⟩, ⟨_, rfl, rfl⟩, _, rfl⟩

/-- The last range in bounds and the first one out. -/
theorem witness_MemCommandCopiesBytes :
    (∃ rest, { State.reset with pending := [.mem 0xFFF 1] }.pending = .mem 0xFFF 1 :: rest ∧ 0xFFF + 1 ≤ 4096) ∧
    (∃ rest, { State.reset with pending := [.mem 0xFFF 2] }.pending = .mem 0xFFF 2 :: rest ∧ 0xFFF + 2 > 4096) :=
  ⟨⟨_, rfl, by decide⟩, _, rfl, by decide⟩

theorem witness_MachineThatIsNotRunningIsIdle :
    State.reset.fault = none ∧ State.reset.pending = [] ∧ State.reset.runState ≠ .running := by decide

theorem witness_ParkedMachineStaysParked : parked.AboutToCycle ∧ parked.Parked :=
  ⟨by decide, rfl, rfl, by decide, 0x200, by decide, by decide⟩

theorem witness_ConstructedStateIsTheResetTable :
    (List.replicate 3585 (0 : Byte)).length > 3584 ∧ (List.replicate 3584 (0 : Byte)).length ≤ 3584 := by
  rw [List.length_replicate, List.length_replicate]; decide

/-- The invariant at a state whose cycle steps. -/
theorem witness_StepKeepsTheInvariant :
    let s := { State.reset with runState := .running }
    s.Inv ∧ ∃ t, step s = .next t :=
  ⟨⟨by decide, by decide, by decide, by intro r h; cases h⟩, _, rfl⟩

theorem witness_ReachableStatesMeetTheInvariant : ∃ s, State.Reachable s ∧ s.runState = .running :=
  have constructed : State.construct Params.default defaultFont [0x12, 0x00] = some _ := rfl
  ⟨_, .step (.post .start (.construct constructed)) rfl, rfl⟩

/-- The frame statements: a next state that completes, and one that faults. -/
theorem witness_InstructionFrames :
    (∃ t, exec (.ldMemReg 2) State.reset = .next t ∧ t.fault = none ∧ State.reset.fault = none) ∧
    ∃ t, exec .ret State.reset = .next t ∧ t.fault ≠ none := ⟨⟨_, rfl, rfl, rfl⟩, _, rfl, by decide⟩

/-- The last entry and the full stack; one live entry, sixteen, and none. -/
theorem witness_CallAndReturn :
    { State.reset with sp := 15 }.sp.val < 16 ∧ { State.reset with sp := 16 }.sp.val = 16 ∧
    { State.reset with sp := 1 }.sp.val = (0 : Fin 16).val + 1 ∧ { State.reset with sp := 16 }.sp.val = (15 : Fin 16).val + 1 ∧
    State.reset.sp.val = 0 := by decide

theorem witness_ShiftsTakeTheBitShiftedOut :
    (∃ src, src = (if State.reset.params.shiftSource = .vy then State.reset.reg 1 else State.reset.reg 0)) ∧
    (0 : Reg) ≠ regF := ⟨⟨_, rfl⟩, by decide⟩

/-- LD B: the last address in bounds and the first one out. -/
theorem witness_BcdStoresThreeDigits :
    State.reset.mem.wf ∧ { State.reset with i := 0xFFD }.i.toNat + 2 ≤ 0xFFF ∧
    { State.reset with i := 0xFFE }.i.toNat + 2 > 0xFFF := by decide

/-- The block accesses, StoreThenLoadRestoresRegisters: the last address in bounds and the first one out. -/
theorem witness_RegisterBlocks :
    State.reset.mem.wf ∧ { State.reset with i := 0xFF0 }.i.toNat + (15 : Reg).val ≤ 0xFFF ∧
    { State.reset with i := 0xFF1 }.i.toNat + (15 : Reg).val > 0xFFF := by decide

/-- The fetched word lies at the very end of the block stored. -/
theorem witness_StoredBytesAreFetched :
    let s := { withRegs [(0, 0x12), (1, 0x0A)] with i := 0xFFE }
    s.mem.wf ∧ s.i.toNat + (1 : Reg).val ≤ 0xFFF ∧ (∃ t, exec (.ldMemReg 1) s = .next t) ∧
      s.i.toNat ≤ (0xFFE : Word).toNat ∧ (0xFFE : Word).toNat + 1 ≤ s.i.toNat + (1 : Reg).val :=
  ⟨by decide, by decide, ⟨_, rfl⟩, by decide, by decide⟩

/-- `LD DT, V2` and then `LD V3, DT` (T2). -/
theorem witness_TimerSetThenReadIsOneLess :
    let s := ready 0xF215 { withRegs [(2, 3)] with mem := [(0x202, 0xF3), (0x203, 0x07)] }
    s.AboutToCycle ∧ s.wait = none ∧ s.Fetches (.ldDtReg 2) ∧
      ∃ t, step s = .next t ∧ t.Fetches (.ldRegDt 3) ∧ ∃ u, step t = .next u :=
  ⟨by decide, rfl, by unfold State.Fetches; decide, _, rfl, by unfold State.Fetches; decide, _, rfl⟩

/-- No rows at all; the last sprite in bounds; the first one out. -/
theorem witness_DrawTogglesTheSprite :
    (0 : BitVec 4) = 0 ∧ { State.reset with i := 0xFF1 }.i.toNat + (15 : BitVec 4).toNat - 1 ≤ 0xFFF ∧
    { State.reset with i := 0xFF2 }.i.toNat + (15 : BitVec 4).toNat - 1 > 0xFFF := by decide

/-- The set bit at the top left of glyph 0 covers pixel (0, 0): off on the clear surface, on when row 0 is full. -/
theorem witness_DrawTwiceRestoresTheSurface :
    (∃ t, exec (.drw 0 1 5) State.reset = .next t ∧ t.reg 0 = State.reset.reg 0 ∧ t.reg 1 = State.reset.reg 1 ∧
      ∃ u, exec (.drw 0 1 5) t = .next u) ∧
    State.reset.SpriteCovers 0 1 5 0 0 ∧ State.reset.fb.pixel 0 0 = false :=
  ⟨⟨_, rfl, rfl, rfl, _, rfl⟩, ⟨0, 0, by decide, by decide, by decide, rfl, rfl⟩, by decide⟩

/-- A surface with every pixel on: the other clause of the same statement. -/
theorem witness_DrawTwiceRestoresTheSurface_all_on :
    let s := { State.reset with fb := Vector.replicate 32 (BitVec.allOnes 64) }
    ∀ c q, s.SpriteCovers 0 1 5 c q → s.fb.pixel q c = true := by
  rintro s c q ⟨r, b, hr, hb, _, hl⟩
  obtain ⟨hc, hq⟩ : c = _ ∧ q = _ := hl
  have hc : c < 64 := by omega
  have hq : q < 32 := by omega
  simp only [s, Framebuffer.pixel, hq, dif_pos, Vector.getElem_replicate, BitVec.getLsbD_allOnes, hc, decide_true]

theorem witness_KeySkips :
    ((withRegs [(0, 15)]).reg 0).toNat ≤ 15 ∧ ((withRegs [(0, 16)]).reg 0).toNat > 15 := by decide

end Sys2Proof.Tests
end

section
/-! PROOFS. The state after construction (spec 10_state.md R39; 20_memory.md R69; 70_reset_and_hazards.md R260, R264). -/

namespace Sys2Proof.Machine

/-! ### When construction answers, and what it answers -/

theorem construct_eq_none {params : Params} {font : Vector Byte 80} {image : List Byte} (h : image.length > 3584) :
    State.construct params font image = none :=
  if_neg (Nat.not_le_of_gt h)

theorem construct_eq_some {params : Params} {font : Vector Byte 80} {image : List Byte} (h : image.length ≤ 3584) :
    State.construct params font image =
      some { State.reset with params := params, mem := constructedMemory font image } :=
  if_pos h

/-! ### The four regions of constructed memory: font, gap, image, and above the image -/

/-- The font load alone keeps the canonical form, so the program load over it reads back. -/
theorem wf_fontLoad (font : Vector Byte 80) : (Memory.writeBlock [] 0x000 font.toList).wf :=
  Memory.wf_writeBlock Memory.wf_nil (by simp)

theorem constructedMemory_read_font (font : Vector Byte 80) (image : List Byte) (k : Fin 80) :
    (constructedMemory font image).read k.val = font[k.val] := by
  have font_reads_back := Memory.read_writeBlock (k := k.val) (bs := font.toList) Memory.wf_nil
    (show 0 + font.toList.length ≤ 4096 by simp) (by simp)
  rw [constructedMemory, Memory.read_writeBlock_outside (by omega)]
  simpa using font_reads_back

/-- Outside both loads an address reads as unlisted, which is 0 above the default font's range. -/
theorem constructedMemory_read_outside {font : Vector Byte 80} {image : List Byte} {a : Nat} (hfont : 0x050 ≤ a)
    (himage : ¬ (0x200 ≤ a ∧ a < 0x200 + image.length)) : (constructedMemory font image).read a = 0 := by
  rw [constructedMemory, Memory.read_writeBlock_outside himage,
    Memory.read_writeBlock_outside (by rw [Vector.length_toList]; omega)]
  exact Memory.unlisted_above_font hfont

theorem constructedMemory_read_image (font : Vector Byte 80) {image : List Byte} {k : Nat}
    (hfits : image.length ≤ 3584) (hk : k < image.length) :
    (constructedMemory font image).read (0x200 + k) = image[k] :=
  Memory.read_writeBlock (wf_fontLoad font) (by omega) hk

/-! ### The registers, the stack and the surface that construction takes over from the reset state -/

theorem reset_reg (r : Reg) : State.reset.reg r = 0 := by simp [State.reg, State.reset]

theorem reset_stack (j : Fin 16) : State.reset.stack[j.val] = 0 := by simp [State.reset]

theorem reset_pixel (q c : Nat) : State.reset.fb.pixel q c = false := pixel_clear q c

/-! ### The reset table -/

/-- Settles O24: memory region by region from the two loads, every other field from the reset state. -/
theorem constructedStateIsTheResetTable : Obligations.ConstructedStateIsTheResetTable := by
  intro params font image
  refine ⟨construct_eq_none, fun hfits => ⟨_, construct_eq_some hfits, ?_⟩⟩
  have image_loaded : ∀ k, k < image.length → image[k]? = some ((constructedMemory font image).read (0x200 + k)) := by
    intro k hk
    rw [constructedMemory_read_image font hfits hk, List.getElem?_eq_getElem hk]
  exact ⟨reset_reg, rfl, rfl, reset_stack, rfl, rfl, rfl,
    constructedMemory_read_font font image,
    fun a hlo hhi => constructedMemory_read_outside hlo (by omega),
    image_loaded,
    fun a hlo _ => constructedMemory_read_outside (by omega) (by omega),
    reset_pixel, rfl, rfl, rfl, rfl, rfl, rfl⟩

end Sys2Proof.Machine
end

section
/-! PROOFS. Subroutine calls and compare-and-skip (spec 40_control_flow.md R104, R106 to R110; 60_exceptions.md R224,
R225). -/

namespace Sys2Proof.Machine

@[simp] theorem zext12_toNat (nnn : Addr12) : (zext12 nnn).toNat = nnn.toNat :=
  BitVec.toNat_setWidth_of_le (by decide)

/-! ### CALL: the stack has room, or it is full -/

theorem exec_call_of_lt {nnn : Addr12} {s : State} (h : s.sp.val < 16) :
    exec (.call nnn) s = .next
      { s with stack := s.stack.set s.sp.val (s.pc + 2), sp := ⟨s.sp.val + 1, by omega⟩, pc := zext12 nnn } := by
  rw [exec, execCall, push_of_lt h]; rfl

theorem exec_call_of_full {nnn : Addr12} {s : State} (h : s.sp.val = 16) :
    exec (.call nnn) s = .next (s.raise (.stackOverflow s.pc (encode (.call nnn)))) := by
  rw [exec, execCall, push_eq_none.2 h]

/-! ### RET: the stack has a live entry, or it is empty -/

theorem exec_ret_of_pos {s : State} (h : 0 < s.sp.val) :
    exec .ret s = .next { s with sp := ⟨s.sp.val - 1, by omega⟩, pc := s.stack[s.sp.val - 1] } := by
  rw [exec, execRet, pop_of_pos h]; rfl

theorem exec_ret_of_empty {s : State} (h : s.sp.val = 0) :
    exec .ret s = .next (s.raise (.stackUnderflow s.pc (encode .ret))) := by
  rw [exec, execRet, pop_eq_none.2 h]

/-- A push writes the entry at `SP` and keeps the other fifteen (R28). -/
theorem stack_set_entry (stack : Vector Word 16) {sp : Nat} (h : sp < 16) (w : Word) (j : Fin 16) :
    (stack.set sp w h)[j.val] = if j.val = sp then w else stack[j.val] := by
  simp only [Vector.getElem_set, eq_comm]

/-- Settles O35: the push has room below 16 entries, and raises at 16. -/
theorem callPushesTheReturnAddress : Obligations.CallPushesTheReturnAddress := by
  intro nnn s
  exact ⟨fun hroom => ⟨_, exec_call_of_lt hroom, zext12_toNat nnn, rfl, stack_set_entry s.stack hroom (s.pc + 2), rfl,
    fun _ _ => rfl, fun _ _ => rfl⟩, exec_call_of_full⟩

/-- Settles O36: the pop takes entry `SP - 1`, and raises when there is none. -/
theorem returnPopsTheReturnAddress : Obligations.ReturnPopsTheReturnAddress := by
  intro s
  refine ⟨fun j hsp => ?_, exec_ret_of_empty⟩
  have newest : s.sp.val - 1 = j.val := by omega
  exact ⟨_, exec_ret_of_pos (by omega), by simp only [newest], newest, rfl, fun _ _ => rfl, fun _ _ => rfl⟩

/-! ### The compare-and-skip instructions, by their condition as a proposition -/

theorem skipIf_of_iff {s : State} {taken : Bool} {P : Prop} [Decidable P] (h : taken = true ↔ P) :
    s.skipIf taken = { s with pc := if P then s.pc + 4 else s.pc + 2 } := by
  simp only [State.skipIf, State.setPc, h]

/-- SE's condition (R107, R109). -/
theorem skipIf_beq (s : State) (a b : Byte) :
    s.skipIf (a == b) = { s with pc := if a = b then s.pc + 4 else s.pc + 2 } :=
  skipIf_of_iff beq_iff_eq

/-- SNE's condition (R108, R110). -/
theorem skipIf_bne (s : State) (a b : Byte) :
    s.skipIf (a != b) = { s with pc := if a = b then s.pc + 2 else s.pc + 4 } := by
  rw [skipIf_of_iff bne_iff_ne, ite_not]

theorem exec_seImm (x : Reg) (kk : Byte) (s : State) :
    exec (.seImm x kk) s = .next { s with pc := if s.reg x = kk then s.pc + 4 else s.pc + 2 } :=
  congrArg _ (skipIf_beq s (s.reg x) kk)

theorem exec_sneImm (x : Reg) (kk : Byte) (s : State) :
    exec (.sneImm x kk) s = .next { s with pc := if s.reg x = kk then s.pc + 2 else s.pc + 4 } :=
  congrArg _ (skipIf_bne s (s.reg x) kk)

theorem exec_seReg (x y : Reg) (s : State) :
    exec (.seReg x y) s = .next { s with pc := if s.reg x = s.reg y then s.pc + 4 else s.pc + 2 } :=
  congrArg _ (skipIf_beq s (s.reg x) (s.reg y))

theorem exec_sneReg (x y : Reg) (s : State) :
    exec (.sneReg x y) s = .next { s with pc := if s.reg x = s.reg y then s.pc + 2 else s.pc + 4 } :=
  congrArg _ (skipIf_bne s (s.reg x) (s.reg y))

/-- Settles O38: each instruction's condition, and with `x = y` the condition is `V[x] = V[x]`. -/
theorem compareAndSkip : Obligations.CompareAndSkip := by
  intro x y kk s
  refine ⟨exec_seImm x kk s, exec_sneImm x kk s, exec_seReg x y s, exec_sneReg x y s, ?_, ?_⟩
  · rw [exec_seReg, if_pos rfl]
  · rw [exec_sneReg, if_pos rfl]

end Sys2Proof.Machine
end

section
/-! PROOFS. Register and ALU instructions (spec 41_alu.md R131 to R143). -/

namespace Sys2Proof.Machine

/-! ### The flag bytes as numbers -/

theorem flagByte_toNat (b : Bool) : (flagByte b).toNat = b.toNat := by cases b <;> rfl

theorem flagByte_decide_toNat (p : Prop) [Decidable p] : (flagByte (decide p)).toNat = if p then 1 else 0 := by
  by_cases h : p <;> simp [flagByte, h]

theorem carryFlag_toNat (a b : Byte) : (carryFlag a b).toNat = if a.toNat + b.toNat > 255 then 1 else 0 := by
  rw [carryFlag, flagByte_decide_toNat]

theorem greaterFlag_toNat (a b : Byte) : (greaterFlag a b).toNat = if a.toNat > b.toNat then 1 else 0 := by
  rw [greaterFlag, flagByte_decide_toNat]

theorem notGreaterFlag_toNat (a b : Byte) : (notGreaterFlag a b).toNat = if a.toNat > b.toNat then 0 else 1 := by
  rw [notGreaterFlag, ← decide_not, flagByte_decide_toNat, ite_not]

theorem lowBitFlag_toNat (a : Byte) : (lowBitFlag a).toNat = a.toNat % 2 := by
  rw [lowBitFlag, flagByte_toNat, BitVec.getLsbD, Nat.toNat_testBit, Nat.pow_zero, Nat.div_one]

/-- Bit 7 is the whole quotient by 128, since a byte is below 256. -/
theorem highBitFlag_toNat (a : Byte) : (highBitFlag a).toNat = a.toNat / 128 := by
  rw [highBitFlag, flagByte_toNat, BitVec.getLsbD, Nat.toNat_testBit]
  omega

/-! ### The operands -/

/-- The difference of two bytes, without a truncated subtraction. -/
theorem byte_sub_toNat (a b : Byte) : (a - b).toNat = (a.toNat + 256 - b.toNat) % 256 := by
  rw [BitVec.toNat_sub]; omega

/-- The shifts' source as the spec's conditional (R140, R142). -/
theorem shiftOperand_eq (s : State) (x y : Reg) :
    s.shiftOperand x y = if s.params.shiftSource = .vy then s.reg y else s.reg x := by
  rw [State.shiftOperand]; cases s.params.shiftSource <;> rfl

/-! ### The two shapes an ALU instruction's next state takes: a result alone, or a result and then `VF` (R131) -/

section
variable (s : State) (x : Reg) (result flag : Byte)

theorem setReg_advance_reg : (s.setReg x result).advance.reg x = result := by
  rw [advance_reg, setReg_reg_same]

theorem setReg_advance_frame : OnlyRegistersChange s (s.setReg x result).advance [x] := by
  refine ⟨rfl, fun r hr => ?_, fun _ _ => rfl⟩
  rw [advance_reg, setReg_reg_ne s result (List.ne_of_not_mem_cons hr)]

theorem setRegFlag_advance_flag : (s.setRegFlag x result flag).advance.reg regF = flag := by
  rw [advance_reg, setRegFlag_reg, if_pos rfl]

/-- The result survives the flag's write when it is not in `VF`. -/
theorem setRegFlag_advance_result {x : Reg} (hx : x ≠ regF) : (s.setRegFlag x result flag).advance.reg x = result := by
  rw [advance_reg, setRegFlag_reg, if_neg hx, if_pos rfl]

theorem setRegFlag_advance_frame : OnlyRegistersChange s (s.setRegFlag x result flag).advance [x, regF] := by
  refine ⟨rfl, fun r hr => ?_, fun _ _ => rfl⟩
  obtain ⟨hx, hF⟩ : r ≠ x ∧ r ≠ regF := by simpa using hr
  rw [advance_reg, setRegFlag_reg, if_neg hF, if_neg hx]

end

/-! ### Instructions that write no flag -/

/-- Settles O39: each load is one register write. -/
theorem registerLoads : Obligations.RegisterLoads := by
  intro x y kk s
  exact ⟨⟨_, rfl, setReg_advance_reg s x kk, rfl, setReg_advance_frame s x kk⟩,
    ⟨_, rfl, setReg_advance_reg s x (s.reg y), rfl, setReg_advance_frame s x (s.reg y)⟩⟩

/-- Settles O40: the register is written once, with the machine sum. -/
theorem addImmediateWrapsWithoutFlag : Obligations.AddImmediateWrapsWithoutFlag := by
  intro x kk s
  refine ⟨_, rfl, ?_, rfl, setReg_advance_frame s x _⟩
  rw [setReg_advance_reg, BitVec.toNat_add]

/-- Settles O41: the machine words' operations are bitwise. -/
theorem logicalOperationsBitwise : Obligations.LogicalOperationsBitwise := by
  intro x y s
  refine ⟨⟨_, rfl, fun k => ?_, rfl, setReg_advance_frame s x _⟩,
    ⟨_, rfl, fun k => ?_, rfl, setReg_advance_frame s x _⟩, ⟨_, rfl, fun k => ?_, rfl, setReg_advance_frame s x _⟩⟩
  · rw [setReg_advance_reg, BitVec.getLsbD_or]
  · rw [setReg_advance_reg, BitVec.getLsbD_and]
  · rw [setReg_advance_reg, BitVec.getLsbD_xor]

/-- Settles O45: the state's random byte is arbitrary, and so is the byte that is masked. -/
theorem randomByteIsMasked : Obligations.RandomByteIsMasked := by
  intro x kk s
  refine ⟨_, rfl, fun k => ?_, rfl, setReg_advance_frame s x _⟩
  rw [setReg_advance_reg, BitVec.getLsbD_and]

/-! ### Instructions that write a flag last -/

/-- Settles O42: the result and the carry are both functions of the operands before the write. -/
theorem addSetsCarry : Obligations.AddSetsCarry := by
  intro x y s
  refine ⟨_, rfl, fun hx => ?_, ?_, rfl, setRegFlag_advance_frame s x _ _⟩
  · rw [setRegFlag_advance_result _ _ _ hx, BitVec.toNat_add]
  · rw [setRegFlag_advance_flag, carryFlag_toNat]

/-- Settles O43: both subtractions make the same comparison, SUBN complements it. -/
theorem subtractionsSetTheComparison : Obligations.SubtractionsSetTheComparison := by
  intro x y s
  refine ⟨⟨_, rfl, fun hx => ?_, ?_, rfl, setRegFlag_advance_frame s x _ _⟩,
    ⟨_, rfl, fun hx => ?_, ?_, rfl, setRegFlag_advance_frame s x _ _⟩⟩
  · rw [setRegFlag_advance_result _ _ _ hx, byte_sub_toNat]
  · rw [setRegFlag_advance_flag, greaterFlag_toNat]
  · rw [setRegFlag_advance_result _ _ _ hx, byte_sub_toNat]
  · rw [setRegFlag_advance_flag, notGreaterFlag_toNat]

/-- Settles O44: the given source is the shifts' operand; a shift by one halves or doubles it. -/
theorem shiftsTakeTheBitShiftedOut : Obligations.ShiftsTakeTheBitShiftedOut := by
  intro x y s src hsrc
  rw [← shiftOperand_eq] at hsrc
  subst hsrc
  refine ⟨⟨_, rfl, fun hx => ?_, ?_, rfl, setRegFlag_advance_frame s x _ _⟩,
    ⟨_, rfl, fun hx => ?_, ?_, rfl, setRegFlag_advance_frame s x _ _⟩⟩
  · rw [setRegFlag_advance_result _ _ _ hx, BitVec.toNat_ushiftRight, Nat.shiftRight_one]
  · rw [setRegFlag_advance_flag, lowBitFlag_toNat]
  · rw [setRegFlag_advance_result _ _ _ hx, BitVec.toNat_shiftLeft, Nat.shiftLeft_eq, Nat.pow_one]
  · rw [setRegFlag_advance_flag, highBitFlag_toNat]

end Sys2Proof.Machine
end

section
/-! PROOFS. The address register, and the memory instructions at it (spec 42_index_memory.md R160 to R165;
60_exceptions.md R226). -/

namespace Sys2Proof.Machine

/-! ### The values the three instructions write to `I` -/

@[simp] theorem zext8_toNat (b : Byte) : (zext8 b).toNat = b.toNat :=
  BitVec.toNat_setWidth_of_le (by decide)

theorem add_zext8_toNat (w : Word) (b : Byte) : (w + zext8 b).toNat = (w.toNat + b.toNat) % 65536 := by
  rw [BitVec.toNat_add, zext8_toNat]

/-- The mask is the remainder by 16, and five times a nibble does not wrap. -/
theorem glyphAddress_toNat (b : Byte) : (glyphAddress b).toNat = b.toNat % 16 * 5 := by
  have low_nibble : (b &&& 0x0F).toNat = b.toNat % 16 := Nat.and_two_pow_sub_one_eq_mod b.toNat 4
  rw [glyphAddress, BitVec.toNat_mul, zext8_toNat, low_nibble]
  have no_wrap : b.toNat % 16 * 5 < 2 ^ 16 := by omega
  exact Nat.mod_eq_of_lt no_wrap

/-- Settles O46: each instruction is one write of `I`. -/
theorem addressRegisterWrites : Obligations.AddressRegisterWrites := by
  intro nnn x s
  exact ⟨⟨_, rfl, zext12_toNat nnn, rfl⟩, ⟨_, rfl, add_zext8_toNat s.i (s.reg x), rfl⟩,
    ⟨_, rfl, glyphAddress_toNat (s.reg x), rfl⟩⟩

/-! ### LD B, LD [I], Vx and LD Vx, [I]: the effect when the whole range is in bounds (R55, R68) -/

theorem exec_ldBcd_in_bounds {x : Reg} {s : State} (h : s.i.toNat + 2 ≤ 0xFFF) :
    exec (.ldBcd x) s = .next (s.storeBytes s.i.toNat (bcdDigits (s.reg x))).advance :=
  congrArg _ (accessAtI_in_bounds (.inr (by omega)))

theorem exec_ldMemReg_in_bounds {x : Reg} {s : State} (h : s.i.toNat + x.val ≤ 0xFFF) :
    exec (.ldMemReg x) s = .next (s.storeBytes s.i.toNat (s.regBlock x)).advance :=
  congrArg _ (accessAtI_in_bounds (.inr (by omega)))

theorem exec_ldRegMem_in_bounds {x : Reg} {s : State} (h : s.i.toNat + x.val ≤ 0xFFF) :
    exec (.ldRegMem x) s = .next (s.loadRegBlock x s.i.toNat).advance :=
  congrArg _ (accessAtI_in_bounds (.inr (by omega)))

/-! ### The two shapes a completed memory instruction's next state takes: bytes stored, or registers loaded -/

theorem storeBytes_advance_byteAt {s : State} {a k : Nat} {bytes : List Byte} (hmem : s.mem.wf)
    (hfits : a + bytes.length ≤ 4096) (hk : k < bytes.length) :
    (s.storeBytes a bytes).advance.byteAt (a + k) = bytes[k] :=
  Memory.read_writeBlock hmem hfits hk

theorem storeBytes_advance_frame (s : State) (a : Nat) (bytes : List Byte) :
    OnlyBytesChange s (s.storeBytes a bytes).advance a bytes.length :=
  ⟨rfl, fun _ _ => rfl, fun _ => Memory.read_writeBlock_outside⟩

theorem loadRegBlock_advance_loaded (s : State) (a : Nat) {x r : Reg} (h : r.val ≤ x.val) :
    (s.loadRegBlock x a).advance.reg r = s.byteAt (a + r.val) := by
  rw [advance_reg, loadRegBlock_reg, if_pos h]

theorem loadRegBlock_advance_kept (s : State) (a : Nat) {x r : Reg} (h : x.val < r.val) :
    (s.loadRegBlock x a).advance.reg r = s.reg r := by
  rw [advance_reg, loadRegBlock_reg, if_neg (Nat.not_le_of_gt h)]

theorem loadRegBlock_advance_pc (s : State) (x : Reg) (a : Nat) : (s.loadRegBlock x a).advance.pc = s.pc + 2 := by
  rw [advance_pc, loadRegBlock_pc]

theorem loadRegBlock_advance_frame (s : State) (x : Reg) (a : Nat) :
    (s.loadRegBlock x a).advance =
      { s with v := (s.loadRegBlock x a).advance.v, pc := (s.loadRegBlock x a).advance.pc } := by
  simp only [State.loadRegBlock, State.advance, State.setPc]

theorem loadRegBlock_advance_sameMemory (s : State) (x : Reg) (a : Nat) :
    SameMemoryOutside s (s.loadRegBlock x a).advance 0 0 := by
  intro b _
  rw [advance_byteAt, loadRegBlock_byteAt]

/-! ### The decimal digits: each is below 256, so its byte holds it -/

theorem bcdDigits_hundreds (b : Byte) : (bcdDigits b)[0].toNat = b.toNat / 100 :=
  Nat.mod_eq_of_lt (by omega)

theorem bcdDigits_tens (b : Byte) : (bcdDigits b)[1].toNat = b.toNat / 10 % 10 :=
  Nat.mod_eq_of_lt (by omega)

theorem bcdDigits_units (b : Byte) : (bcdDigits b)[2].toNat = b.toNat % 10 :=
  Nat.mod_eq_of_lt (by omega)

/-! ### The memory instructions -/

/-- Settles O47: the block stored is the three digits, and a block past the last address raises. -/
theorem bcdStoresThreeDigits : Obligations.BcdStoresThreeDigits := by
  intro x s hmem
  refine ⟨fun hin => ?_, fun hout => congrArg _ (accessAtI_out_of_bounds (by decide) (by omega))⟩
  have stored {k : Nat} (hk : k < 3) :
      (s.storeBytes s.i.toNat (bcdDigits (s.reg x))).advance.byteAt (s.i.toNat + k) = (bcdDigits (s.reg x))[k] :=
    storeBytes_advance_byteAt hmem (by rw [bcdDigits_length]; omega) hk
  exact ⟨_, exec_ldBcd_in_bounds hin,
    (congrArg _ (stored (k := 0) (by decide))).trans (bcdDigits_hundreds _),
    (congrArg _ (stored (k := 1) (by decide))).trans (bcdDigits_tens _),
    (congrArg _ (stored (k := 2) (by decide))).trans (bcdDigits_units _),
    rfl, storeBytes_advance_frame s _ _⟩

/-- Settles O48: the block stored is `V0` to `Vx`, `x + 1` bytes long. -/
theorem registerBlockStore : Obligations.RegisterBlockStore := by
  intro x s hmem
  refine ⟨fun hin => ⟨_, exec_ldMemReg_in_bounds hin, fun r hr => ?_, rfl, ?_⟩,
    fun hout => congrArg _ (accessAtI_out_of_bounds (Nat.succ_ne_zero _) (by omega))⟩
  · have hfits : s.i.toNat + (s.regBlock x).length ≤ 4096 := by rw [regBlock_length]; omega
    rw [storeBytes_advance_byteAt hmem hfits (by rw [regBlock_length]; omega), regBlock_getElem s hr]
  · rw [← regBlock_length s x]
    exact storeBytes_advance_frame s _ _

/-- Settles O49: a register is loaded exactly when its index is at most `x`. -/
theorem registerBlockLoad : Obligations.RegisterBlockLoad := by
  intro x s
  exact ⟨fun hin => ⟨_, exec_ldRegMem_in_bounds hin, fun _ => loadRegBlock_advance_loaded s _,
    fun _ => loadRegBlock_advance_kept s _, loadRegBlock_advance_pc s x _, loadRegBlock_advance_frame s x _,
    loadRegBlock_advance_sameMemory s x _⟩,
    fun hout => congrArg _ (accessAtI_out_of_bounds (Nat.succ_ne_zero _) (by omega))⟩

end Sys2Proof.Machine
end

section
/-! PROOFS. The timers: what an instruction, a cycle and a step do to `DT` and `ST` (spec 43_timers.md R180 to R184). -/

namespace Sys2Proof.Machine

/-! ### What an instruction does to the timers -/

/-- Both timers hold in `t` what they hold in `s`. -/
def SameTimers (s t : State) : Prop := t.dt = s.dt ∧ t.st = s.st

theorem accessAtI_sameTimers {s done : State} (ins : Instr) (kind : AccessKind) (n : Nat) (h : SameTimers s done) :
    SameTimers s (s.accessAtI ins kind n done) := by
  rcases accessAtI_cases s ins kind n done with ⟨_, _, hfault⟩ | ⟨_, hdone⟩
  · rw [hfault]; exact ⟨rfl, rfl⟩
  · rw [hdone]; exact h

theorem skipOnKey_sameTimers (s : State) (ins : Instr) (x : Reg) (down : Bool) :
    SameTimers s (s.skipOnKey ins x down) := by
  rcases Nat.lt_or_ge 15 (s.reg x).toNat with hgt | hle
  · rw [skipOnKey_of_gt hgt]; exact ⟨rfl, rfl⟩
  · rw [skipOnKey_of_le hle]; exact ⟨rfl, rfl⟩

theorem execRet_sameTimers {s t : State} (h : execRet s = .next t) : SameTimers s t := by
  unfold execRet at h
  split at h
  · rename_i w s' hpop
    obtain ⟨_, _, rfl⟩ := pop_eq_some hpop
    cases h; exact ⟨rfl, rfl⟩
  · cases h; exact ⟨rfl, rfl⟩

theorem execCall_sameTimers {nnn : Addr12} {s t : State} (h : execCall nnn s = .next t) : SameTimers s t := by
  unfold execCall at h
  split at h
  · rename_i s' hpush
    obtain ⟨_, rfl⟩ := push_eq_some hpush
    cases h; exact ⟨rfl, rfl⟩
  · cases h; exact ⟨rfl, rfl⟩

/-- FX15 writes the delay timer, FX18 the sound timer, and no other instruction writes either (10_state.md R29, R30). -/
theorem exec_timers {i : Instr} {s t : State} (h : exec i s = .next t) :
    SameTimers s t ∨ (∃ x, i = .ldDtReg x ∧ t.dt = s.reg x ∧ t.st = s.st) ∨
      (∃ x, i = .ldStReg x ∧ t.st = s.reg x ∧ t.dt = s.dt) := by
  cases i
  case ldDtReg x => cases h; exact .inr (.inl ⟨x, rfl, rfl, rfl⟩)
  case ldStReg x => cases h; exact .inr (.inr ⟨x, rfl, rfl, rfl⟩)
  all_goals left
  case ret => exact execRet_sameTimers h
  case call nnn => exact execCall_sameTimers h
  case skp x => cases h; exact skipOnKey_sameTimers s _ x true
  case sknp x => cases h; exact skipOnKey_sameTimers s _ x false
  case drw | ldBcd | ldMemReg | ldRegMem => cases h; exact accessAtI_sameTimers _ _ _ ⟨rfl, rfl⟩
  all_goals cases h; exact ⟨rfl, rfl⟩

/-- Settles O52: FX07 is one register write, and FX15 and FX18 write their timer alone. -/
theorem timerInstructions : Obligations.TimerInstructions := by
  intro x s
  exact ⟨⟨_, rfl, setReg_advance_reg s x s.dt, rfl, setReg_advance_frame s x s.dt⟩, rfl, rfl⟩

/-! ### What a cycle can do -/

/-- The waiting step changes nothing but `V` and `WAIT`. -/
theorem waitingStep_eq (s : State) (x : Reg) :
    s.waitingStep x = { s with v := (s.waitingStep x).v, wait := (s.waitingStep x).wait } := by
  unfold State.waitingStep; split <;> rfl

theorem waitingStep_sameTimers (s : State) (x : Reg) : SameTimers s (s.waitingStep x) := by
  rw [waitingStep_eq]; exact ⟨rfl, rfl⟩

theorem endCycle_sameTimers (s : State) : SameTimers s s.endCycle := by
  rw [endCycle_eq]; exact ⟨rfl, rfl⟩

@[simp] theorem endCycle_reg (s : State) (r : Reg) : s.endCycle.reg r = s.reg r := by
  rw [endCycle_eq]; rfl

/-- A cycle that waits for nothing and fetches `i` runs `i`'s meaning. -/
theorem cycle_of_fetches {s : State} {i : Instr} (hw : s.wait = none) (hi : s.Fetches i) :
    cycle s = finishCycle (exec i s.beginCycle) := by
  obtain ⟨hpc, hdecode⟩ := hi
  rw [cycle_fetching hw, fetchAndExecute_ok (s := s.beginCycle) (fetchWord_ok.2 ⟨hpc, rfl⟩) hdecode]

/-- The three ends of a cycle: a waiting step, a fault at the fetch or at the decode, or the answer of the instruction
fetched. -/
theorem cycle_cases {s t : State} (h : cycle s = .next t) :
    (∃ x, s.wait = some x ∧ t = (s.beginCycle.waitingStep x).endCycle) ∨
    (s.wait = none ∧ ∃ r, t = s.beginCycle.raise r ∧ (s.fetchWord = .error r ∨
      ∃ w e, s.fetchWord = .ok w ∧ decodeWord w = .error e ∧ r = .decodeFault s.pc w)) ∨
    (s.wait = none ∧ ∃ i u, s.Fetches i ∧ exec i s.beginCycle = .next u ∧ t = u.endCycle) := by
  cases hw : s.wait with
  | some x =>
    rw [cycle_waiting hw] at h
    cases h; exact .inl ⟨x, rfl, rfl⟩
  | none =>
    right
    rw [cycle_fetching hw] at h
    rcases fetchAndExecute_cases s.beginCycle with ⟨r, hf, hrun⟩ | ⟨w, e, hf, hd, hrun⟩ | ⟨w, i, hf, hd, hrun⟩
    · rw [hrun] at h
      cases h; exact .inl ⟨rfl, r, endCycle_faulted rfl, .inl hf⟩
    · rw [hrun] at h
      cases h; exact .inl ⟨rfl, _, endCycle_faulted rfl, .inr ⟨w, e, hf, hd, rfl⟩⟩
    · obtain ⟨u, hu⟩ := exec_answers_next i s.beginCycle
      obtain ⟨hpc, rfl⟩ := fetchWord_ok.1 hf
      rw [hrun, hu] at h
      cases h; exact .inr ⟨rfl, i, u, ⟨hpc, hd⟩, hu, rfl⟩

/-! ### What a cycle does to the timers -/

/-- A cycle counts both timers down, and after that only a fetched FX15 or FX18 writes one of them (R180, R181). -/
theorem cycle_timers {s t : State} (h : cycle s = .next t) :
    (t.dt = tick s.dt ∧ t.st = tick s.st) ∨
    (∃ x, s.wait = none ∧ s.Fetches (.ldDtReg x) ∧ t.dt = s.reg x ∧ t.st = tick s.st) ∨
    (∃ x, s.wait = none ∧ s.Fetches (.ldStReg x) ∧ t.st = s.reg x ∧ t.dt = tick s.dt) := by
  rcases cycle_cases h with ⟨x, _, rfl⟩ | ⟨_, r, rfl, _⟩ | ⟨hw, i, u, hi, hu, rfl⟩
  · obtain ⟨hdt, hst⟩ := waitingStep_sameTimers s.beginCycle x
    obtain ⟨hdt', hst'⟩ := endCycle_sameTimers (s.beginCycle.waitingStep x)
    exact .inl ⟨hdt'.trans hdt, hst'.trans hst⟩
  · exact .inl ⟨rfl, rfl⟩
  · obtain ⟨hdt', hst'⟩ := endCycle_sameTimers u
    rw [hdt', hst']
    rcases exec_timers hu with ⟨hdt, hst⟩ | ⟨x, rfl, hdt, hst⟩ | ⟨x, rfl, hst, hdt⟩
    · exact .inl ⟨hdt, hst⟩
    · exact .inr (.inl ⟨x, hw, hi, hdt, hst⟩)
    · exact .inr (.inr ⟨x, hw, hi, hst, hdt⟩)

/-- The register that a fetched FX07 loads holds the delay timer after the decrement (R182). -/
theorem cycle_ldRegDt_reg {s t : State} {x : Reg} (hw : s.wait = none) (hi : s.Fetches (.ldRegDt x))
    (h : cycle s = .next t) : t.reg x = tick s.dt := by
  rw [cycle_of_fetches hw hi] at h
  cases h
  rw [endCycle_reg, setReg_advance_reg, beginCycle_dt]

/-- Settles O8: a step that is a cycle is the cycle of the state without the `step` command, which has the same timers,
registers, `WAIT` and word at `PC`. -/
theorem delayTimerCountsDownEveryCycle : Obligations.DelayTimerCountsDownEveryCycle := by
  intro s t hs h
  rw [step_of_cycleNext hs] at h
  refine ⟨?_, fun x hw hi => ?_⟩
  · rcases cycle_timers h with ⟨hdt, _⟩ | ⟨x, hw, hi, hdt, _⟩ | ⟨x, _, _, _, hdt⟩
    · exact .inl (by rw [hdt, tick_toNat])
    · exact .inr ⟨x, hw, hi, hdt⟩
    · exact .inl (by rw [hdt, tick_toNat])
  · have hread : t.reg x = tick s.dt := cycle_ldRegDt_reg (s := { s with pending := s.pending.tail }) hw hi h
    rw [hread, tick_toNat]

end Sys2Proof.Machine
end

section
/-! PROOFS. Clearing, drawing, and the skips on a key (spec 44_display_keypad.md R191 to R195, R197, R198;
60_exceptions.md R226, R227). -/

namespace Sys2Proof.Machine

/-- Settles O54: the surface becomes the clear one, and no other field but `PC` is written. -/
theorem clearTurnsEveryPixelOff : Obligations.ClearTurnsEveryPixelOff := by
  intro s
  exact ⟨_, rfl, pixel_clear, rfl⟩

/-! ### SKP and SKNP: `Vx` numbers a key, or it is above 15 (R197, R198, R227) -/

theorem exec_skp_of_key {x : Reg} {s : State} (h : (s.reg x).toNat ≤ 15) :
    exec (.skp x) s =
      .next { s with pc := if s.keys.getLsbD (s.reg x).toNat = true then s.pc + 4 else s.pc + 2 } :=
  congrArg _ ((skipOnKey_of_le h).trans (skipIf_of_iff beq_iff_eq))

theorem exec_sknp_of_key {x : Reg} {s : State} (h : (s.reg x).toNat ≤ 15) :
    exec (.sknp x) s =
      .next { s with pc := if s.keys.getLsbD (s.reg x).toNat = true then s.pc + 2 else s.pc + 4 } := by
  have key_up : (keyDown s.keys (s.reg x).toNat == false) = true ↔ ¬ s.keys.getLsbD (s.reg x).toNat = true := by
    rw [beq_iff_eq, Bool.not_eq_true, keyDown]
  rw [exec, execSknp, skipOnKey_of_le h, skipIf_of_iff key_up, ite_not]

/-- Settles O57: the key's state decides the skip, and both instructions check the key's number alike. -/
theorem keySkips : Obligations.KeySkips := by
  intro x s
  exact ⟨fun hkey => ⟨exec_skp_of_key hkey, exec_sknp_of_key hkey⟩,
    fun hnone => ⟨congrArg _ (skipOnKey_of_gt hnone), congrArg _ (skipOnKey_of_gt hnone)⟩⟩

/-! ### DRW: the sprite is in bounds, or it raises (R192, 60_exceptions.md R226) -/

/-- R192's bound on the last row, which an empty sprite meets too, as the bound of a data access. -/
theorem exec_drw_in_bounds {x y : Reg} {n : BitVec 4} {s : State} (h : n = 0 ∨ s.i.toNat + n.toNat - 1 ≤ 0xFFF) :
    exec (.drw x y n) s = .next (s.drawn x y n.toNat).advance := by
  have bytes_in_bounds : n.toNat = 0 ∨ s.i.toNat + n.toNat ≤ 4096 := by
    rcases h with rfl | h
    · exact .inl rfl
    · omega
  exact congrArg _ (accessAtI_in_bounds bytes_in_bounds)

theorem exec_drw_out_of_bounds {x y : Reg} {n : BitVec 4} {s : State} (hn : n ≠ 0)
    (h : s.i.toNat + n.toNat - 1 > 0xFFF) : exec (.drw x y n) s =
      .next (s.raise (.addressFault s.pc (some (encode (.drw x y n))) (max s.i.toNat 0x1000) .read)) := by
  have some_row : n.toNat ≠ 0 := fun h0 => hn (BitVec.eq_of_toNat_eq h0)
  exact congrArg _ (accessAtI_out_of_bounds some_row (by omega))

/-! ### The next state of a completed draw -/

section
variable (s : State) (x y : Reg)

theorem drawn_advance_flag (n : Nat) : (s.drawn x y n).advance.reg regF = collisionFlag (s.drawSprite x y n).2 := by
  rw [advance_reg, State.drawn, setReg_reg_same]

theorem drawn_advance_sameRegisters (n : Nat) : SameRegistersExcept s (s.drawn x y n).advance [regF] := by
  intro r hr
  rw [advance_reg, State.drawn, setReg_reg_ne _ _ (List.ne_of_not_mem_cons hr)]
  rfl

/-- A draw that turns a set pixel off reports it in `VF` (R192). -/
theorem drawn_advance_flag_collision {n : Nat} (hn : n ≤ 32)
    (h : ∃ c q, s.SpriteCovers x y n c q ∧ s.fb.pixel q c = true) : (s.drawn x y n).advance.reg regF = 1 := by
  obtain ⟨_, _, collides⟩ := drawSprite_spec s x y hn
  rw [drawn_advance_flag, collides.2 h]
  rfl

/-- A draw over pixels that are all off reports none in `VF` (R192). -/
theorem drawn_advance_flag_noCollision {n : Nat} (hn : n ≤ 32)
    (h : ∀ c q, s.SpriteCovers x y n c q → s.fb.pixel q c = false) : (s.drawn x y n).advance.reg regF = 0 := by
  obtain ⟨_, _, collides⟩ := drawSprite_spec s x y hn
  have no_collision : (s.drawSprite x y n).2 = false := by
    rw [Bool.eq_false_iff, ne_eq, collides]
    rintro ⟨c, q, hcover, hset⟩
    rw [h c q hcover] at hset
    cases hset
  rw [drawn_advance_flag, no_collision]
  rfl

end

/-- Settles O55: the covered pixels are the ones `drawSprite` toggles, since a sprite of at most 15 rows lands on no cell
twice. -/
theorem drawTogglesTheSprite : Obligations.DrawTogglesTheSprite := by
  intro x y n s
  have rows_le : n.toNat ≤ 32 := by omega
  refine ⟨fun hin => ?_, exec_drw_out_of_bounds⟩
  obtain ⟨toggled, kept, _⟩ := drawSprite_spec s x y rows_le
  exact ⟨_, exec_drw_in_bounds hin, fun c q _ _ => ⟨toggled q c, kept q c⟩,
    drawn_advance_flag_collision s x y rows_le, drawn_advance_flag_noCollision s x y rows_le, rfl, rfl, rfl,
    drawn_advance_sameRegisters s x y n.toNat, fun _ _ => rfl⟩

end Sys2Proof.Machine
end

section
/-! PROOFS. A word that decodes is the encoding of the instruction it decodes to (spec 30_encoding.md R89). -/

namespace Sys2Proof

/-! ### Format by format: the fixed fields of the word are those of the pattern -/

section
variable {w : Word} {op : BitVec 4}

theorem encodeA12_of_op (hop : (opField w).toNat = op.toNat) : encodeA12 op (nnnField w) = w := by
  rw [← BitVec.eq_of_toNat_eq hop, encodeA12_fields]

theorem encodeXKK_of_op (hop : (opField w).toNat = op.toNat) :
    encodeXKK op (regOfBits (xField w)) (kkField w) = w := by
  rw [← BitVec.eq_of_toNat_eq hop, encodeXKK_fields]

theorem encodeXKK_of_op_kk {kk : Byte} (hop : (opField w).toNat = op.toNat) (hkk : (kkField w).toNat = kk.toNat) :
    encodeXKK op (regOfBits (xField w)) kk = w := by
  rw [← BitVec.eq_of_toNat_eq hkk, encodeXKK_of_op hop]

theorem encodeXYN_of_op (hop : (opField w).toNat = op.toNat) :
    encodeXYN op (regOfBits (xField w)) (regOfBits (yField w)) (nField w) = w := by
  rw [← BitVec.eq_of_toNat_eq hop, encodeXYN_fields]

theorem encodeXYN_of_op_n {n : BitVec 4} (hop : (opField w).toNat = op.toNat) (hn : (nField w).toNat = n.toNat) :
    encodeXYN op (regOfBits (xField w)) (regOfBits (yField w)) n = w := by
  rw [← BitVec.eq_of_toNat_eq hn, encodeXYN_of_op hop]

end

/-! ### Family by family -/

section
variable {w : Word} {i : Instr}

theorem encode_of_decode0 (hop : (opField w).toNat = 0) : encode (decode0 w) = w := by
  unfold decode0
  split
  · rename_i hcls; exact hcls.symm
  · split
    · rename_i hret; exact hret.symm
    · exact encodeA12_of_op hop

theorem encode_of_decode8 (hop : (opField w).toNat = 8) (h : decode8 w = .ok i) : encode i = w := by
  unfold decode8 at h
  split at h <;> cases h <;> exact encodeXYN_of_op_n hop ‹_›

theorem encode_of_decodeE (hop : (opField w).toNat = 14) (h : decodeE w = .ok i) : encode i = w := by
  unfold decodeE at h
  split at h <;> cases h <;> exact encodeXKK_of_op_kk hop ‹_›

theorem encode_of_decodeF (hop : (opField w).toNat = 15) (h : decodeF w = .ok i) : encode i = w := by
  unfold decodeF at h
  split at h <;> cases h <;> exact encodeXKK_of_op_kk hop ‹_›

/-- The decoder ignores no bit of a legal word: encoding what it reads gives the word back. -/
theorem encode_of_decodeWord (h : decodeWord w = .ok i) : encode i = w := by
  unfold decodeWord at h
  split at h
  case h_1 hop => cases h; exact encode_of_decode0 hop
  case h_6 hop | h_10 hop =>
    split at h
    · rename_i hn; cases h; exact encodeXYN_of_op_n hop (congrArg BitVec.toNat hn)
    · cases h
  case h_9 hop => exact encode_of_decode8 hop h
  case h_15 hop => exact encode_of_decodeE hop h
  case h_16 =>
    have hop : (opField w).toNat = 15 := by
      have := (opField w).isLt
      simp only [imp_false] at *
      omega
    exact encode_of_decodeF hop h
  case h_2 hop | h_3 hop | h_11 hop | h_12 hop => cases h; exact encodeA12_of_op hop
  case h_4 hop | h_5 hop | h_7 hop | h_8 hop | h_13 hop => cases h; exact encodeXKK_of_op hop
  case h_14 hop => cases h; exact encodeXYN_of_op hop

end

end Sys2Proof
end

section
/-! PROOFS. Which record a cycle leaves in `FAULT` (spec 60_exceptions.md R220 to R229). -/

namespace Sys2Proof.Machine

/-! ### The spec's causes, by how far the cycle gets: the fetch, the decode, the instruction's own check -/

section
variable {s : State} {r : FaultRecord}

theorem fetches_unique {i j : Instr} (hi : s.Fetches i) (hj : s.Fetches j) : i = j := by
  obtain ⟨_, hdi⟩ := hi
  obtain ⟨_, hdj⟩ := hj
  exact Except.ok.inj (hdi.symm.trans hdj)

/-- With no instruction fetched, a cause is the fetch beyond 0xFFE or, where the word can be fetched, its decode: every
other cause names an instruction (R223, R226, R229). -/
theorem faultCause_of_no_fetch (no_fetch : ∀ i, ¬ s.Fetches i) :
    s.FaultCause r ↔
      (s.pc.toNat > 0xFFE ∧ r = .addressFault s.pc none (max s.pc.toNat 0x1000) .fetch) ∨
      (s.pc.toNat ≤ 0xFFE ∧ r = .decodeFault s.pc s.wordAtPc) := by
  constructor
  · intro h
    match r, h with
    | .decodeFault _ _, ⟨hrpc, hw, hle, _⟩ => exact .inr ⟨hle, by rw [hrpc, hw]⟩
    | .addressFault _ none _ _, ⟨hrpc, hkind, hgt, haddr⟩ => exact .inl ⟨hgt, by rw [hrpc, hkind, haddr]⟩
    | .addressFault _ (some _) _ _, ⟨_, _, _, _, _, hi, _⟩ => exact absurd hi (no_fetch _)
    | .stackOverflow _ _, ⟨_, _, _, _, hi⟩ => exact absurd hi (no_fetch _)
    | .stackUnderflow _ _, ⟨_, _, _, hi⟩ => exact absurd hi (no_fetch _)
    | .keyIndexFault _ _ _, ⟨_, _, _, _, hi, _⟩ => exact absurd hi (not_or.2 ⟨no_fetch _, no_fetch _⟩)
  · rintro (⟨hgt, rfl⟩ | ⟨hle, rfl⟩)
    · exact ⟨rfl, rfl, hgt, rfl⟩
    · exact ⟨rfl, rfl, hle, fun i hd => no_fetch i ⟨hle, hd⟩⟩

/-- With `i` fetched, a cause is a failed check of `i`, whose encoding is the word at `PC` (R224 to R228). -/
theorem faultCause_of_fetches {i : Instr} (hi : s.Fetches i) : s.FaultCause r ↔ Raises s i r := by
  have ⟨hle, hdecode⟩ := hi
  have hword : encode i = s.wordAtPc := encode_of_decodeWord hdecode
  constructor
  · intro h
    match r, h with
    | .decodeFault _ _, ⟨_, hw, _, hill⟩ => exact absurd (hw ▸ hdecode) (hill i)
    | .stackOverflow _ _, ⟨hrpc, hw, hsp, nnn, hj⟩ =>
      cases fetches_unique hi hj
      rw [hrpc, hw, ← hword]; exact .overflow nnn hsp
    | .stackUnderflow _ _, ⟨hrpc, hw, hsp, hj⟩ =>
      cases fetches_unique hi hj
      rw [hrpc, hw, ← hword]; exact .underflow hsp
    | .addressFault _ none _ _, ⟨_, _, hgt, _⟩ => omega
    | .addressFault _ (some _) _ kind, ⟨hrpc, hw, haddr, j, n, hj, hacc, hn, hout⟩ =>
      cases fetches_unique hi hj
      rw [hrpc, hw, haddr, ← hword]; exact .address i kind n hacc (by omega) (by omega)
    | .keyIndexFault _ _ _, ⟨hrpc, hw, hgt, x, hj, hval⟩ =>
      subst hval
      rw [hrpc, hw, ← hword]
      rcases hj with hj | hj
      · cases fetches_unique hi hj; exact .skp x hgt
      · cases fetches_unique hi hj; exact .sknp x hgt
  · intro h
    cases h with
    | overflow nnn hsp => exact ⟨rfl, hword, hsp, nnn, hi⟩
    | underflow hsp => exact ⟨rfl, hword, hsp, hi⟩
    | address i kind n hacc hn hout =>
      exact ⟨rfl, hword, rfl, i, n, hi, hacc, by omega, by omega⟩
    | skp x hgt => exact ⟨rfl, hword, hgt, x, .inl hi, rfl⟩
    | sknp x hgt => exact ⟨rfl, hword, hgt, x, .inr hi, rfl⟩

end

/-! ### What an instruction leaves in `FAULT` -/

/-- An instruction's own check fails with one record at most (R229). -/
theorem raises_unique {s : State} {i : Instr} {r r' : FaultRecord} (h : Raises s i r) (h' : Raises s i r') :
    r = r' := by
  cases h with
  | address i k n hacc hn hout =>
    cases h' with
    | address _ k' n' hacc' _ _ => cases hacc.symm.trans hacc'; rfl
    | overflow _ _ | underflow _ | skp _ _ | sknp _ _ => cases hacc
  | overflow _ _ | underflow _ | skp _ _ | sknp _ _ =>
    cases h' with
    | address _ _ _ hacc _ _ => cases hacc
    | _ => rfl

theorem exec_fault_iff {i : Instr} {s t : State} {r : FaultRecord} (hs : s.fault = none)
    (h : exec i s = .next t) : t.fault = some r ↔ Raises s i r := by
  rcases exec_raises_or_completes h with ⟨r', hr', rfl⟩ | ⟨hnone, hfault⟩
  · rw [raise_fault, Option.some.injEq]
    exact ⟨fun heq => heq ▸ hr', raises_unique hr'⟩
  · rw [hfault, hs]
    exact iff_of_false nofun (hnone r)

/-! ### What a fetching cycle leaves in `FAULT` -/

theorem endCycle_fault (s : State) : s.endCycle.fault = s.fault := by
  rw [endCycle_eq]

/-- A cause reads only what the start of a cycle leaves: `PC`, `SP`, `I`, the registers and memory. -/
theorem beginCycle_faultCause (s : State) (r : FaultRecord) : s.beginCycle.FaultCause r ↔ s.FaultCause r := Iff.rfl

theorem faultCause_of_fetchWord_error {s : State} {r r' : FaultRecord} (h : s.fetchWord = .error r') :
    s.FaultCause r ↔ r' = r := by
  obtain ⟨hgt, rfl⟩ := fetchWord_error.1 h
  have no_fetch : ∀ i, ¬ s.Fetches i := fun _ ⟨hle, _⟩ => by omega
  rw [faultCause_of_no_fetch no_fetch, eq_comm]
  simp only [hgt, Nat.not_le_of_gt hgt, true_and, false_and, or_false]

theorem faultCause_of_decodeWord_error {s : State} {w : Word} {e : DecodeError} {r : FaultRecord}
    (hf : s.fetchWord = .ok w) (hd : decodeWord w = .error e) : s.FaultCause r ↔ .decodeFault s.pc w = r := by
  obtain ⟨hle, rfl⟩ := fetchWord_ok.1 hf
  have no_fetch : ∀ i, ¬ s.Fetches i := fun _ ⟨_, hi⟩ => nomatch hd.symm.trans hi
  rw [faultCause_of_no_fetch no_fetch, eq_comm (b := r)]
  simp only [hle, Nat.not_lt_of_le hle, true_and, false_and, false_or, State.wordAtPc]

theorem cycle_fault_iff {s t : State} {r : FaultRecord} (hf : s.fault = none) (hw : s.wait = none)
    (h : cycle s = .next t) : t.fault = some r ↔ s.FaultCause r := by
  rcases cycle_cases h with ⟨x, hx, _⟩ | ⟨_, r', rfl, herr | ⟨w, e, hok, hd, rfl⟩⟩ | ⟨_, i, u, hi, hu, rfl⟩
  · cases hw.symm.trans hx
  · rw [raise_fault, Option.some.injEq, faultCause_of_fetchWord_error herr]
  · rw [raise_fault, Option.some.injEq, faultCause_of_decodeWord_error hok hd]
  · have fetched : s.beginCycle.Fetches i := hi
    calc u.endCycle.fault = some r
      _ ↔ u.fault = some r := by rw [endCycle_fault]
      _ ↔ Raises s.beginCycle i r := exec_fault_iff (s := s.beginCycle) hf hu
      _ ↔ s.beginCycle.FaultCause r := (faultCause_of_fetches fetched).symm
      _ ↔ s.FaultCause r := beginCycle_faultCause s r

/-- Settles O14: the cycle gets as far as the fetch, the decode or the instruction, and each has one record to leave. -/
theorem cycleFaultsExactlyForItsCause : Obligations.CycleFaultsExactlyForItsCause := by
  intro s t r hs hw h
  rw [step_of_cycleNext hs] at h
  obtain ⟨hf, _⟩ := hs
  exact cycle_fault_iff (s := { s with pending := s.pending.tail }) hf hw h

end Sys2Proof.Machine
end

section
/-! PROOFS. The commands that start, stop and step the machine (spec 60_exceptions.md R252 to R254). -/

namespace Sys2Proof.Machine

/-- Settles O18: `start` sets the run-state, and `stop` does so in the one run-state it acts on. -/
theorem startAndStopCommands : Obligations.StartAndStopCommands := by
  intro s rest hf
  refine ⟨fun hp => step_of_command hf hp, fun hp hrun => ?_, fun hp hrun => ?_⟩
  · rw [step_of_command hf hp]
    simp only [runCommand, hrun]
  · rw [step_of_command hf hp]
    cases hs : s.runState with
    | running => exact absurd hs hrun
    | created | stopped => simp only [runCommand]

/-! ### A cycle neither reads nor writes the run-state, the command channel and the replies -/

/-- `s` under another run-state, with other commands pending and other replies sent. -/
def State.withControl (s : State) (rs : RunState) (cmds : List HostCommand) (sent : List HostReply) : State :=
  { s with runState := rs, pending := cmds, replies := sent }

section
variable (s : State) (rs : RunState) (cmds : List HostCommand) (sent : List HostReply)

/-- The start of a cycle commutes with a change of the control plane. -/
theorem beginCycle_withControl :
    (s.withControl rs cmds sent).beginCycle = s.beginCycle.withControl rs cmds sent := rfl

theorem endCycle_withControl :
    (s.withControl rs cmds sent).endCycle = s.endCycle.withControl rs cmds sent := by
  cases hf : s.fault with
  | none => rw [endCycle_unfaulted hf, endCycle_unfaulted (s := s.withControl rs cmds sent) hf]; rfl
  | some r => rw [endCycle_faulted hf, endCycle_faulted (s := s.withControl rs cmds sent) hf]

theorem waitingStep_withControl (x : Reg) :
    (s.withControl rs cmds sent).waitingStep x = (s.waitingStep x).withControl rs cmds sent := by
  simp only [State.waitingStep, State.withControl]
  cases lowestNewKey s.keys s.prevKeys <;> rfl

theorem accessAtI_withControl (ins : Instr) (kind : AccessKind) (n : Nat) {done done' : State}
    (hdone : done' = done.withControl rs cmds sent) :
    (s.withControl rs cmds sent).accessAtI ins kind n done' =
      (s.accessAtI ins kind n done).withControl rs cmds sent := by
  subst hdone
  simp only [State.accessAtI, State.withControl]
  cases outOfBounds s.i.toNat n <;> rfl

theorem skipOnKey_withControl (ins : Instr) (x : Reg) (down : Bool) :
    (s.withControl rs cmds sent).skipOnKey ins x down = (s.skipOnKey ins x down).withControl rs cmds sent := by
  rcases Nat.lt_or_ge 15 (s.reg x).toNat with hgt | hle
  · rw [skipOnKey_of_gt hgt, skipOnKey_of_gt (s := s.withControl rs cmds sent) hgt]; rfl
  · rw [skipOnKey_of_le hle, skipOnKey_of_le (s := s.withControl rs cmds sent) hle]; rfl

end

section
variable {s t : State} (rs : RunState) (cmds : List HostCommand) (sent : List HostReply)

theorem exec_ret_withControl (h : exec .ret s = .next t) :
    exec .ret (s.withControl rs cmds sent) = .next (t.withControl rs cmds sent) := by
  rcases Nat.eq_zero_or_pos s.sp.val with hempty | hpos
  · rw [exec_ret_of_empty hempty] at h
    rw [exec_ret_of_empty (s := s.withControl rs cmds sent) hempty]
    cases h; rfl
  · rw [exec_ret_of_pos hpos] at h
    rw [exec_ret_of_pos (s := s.withControl rs cmds sent) hpos]
    cases h; rfl

theorem exec_call_withControl {nnn : Addr12} (h : exec (.call nnn) s = .next t) :
    exec (.call nnn) (s.withControl rs cmds sent) = .next (t.withControl rs cmds sent) := by
  rcases Nat.lt_or_ge s.sp.val 16 with hroom | hfull
  · rw [exec_call_of_lt hroom] at h
    rw [exec_call_of_lt (s := s.withControl rs cmds sent) hroom]
    cases h; rfl
  · have full : s.sp.val = 16 := by omega
    rw [exec_call_of_full full] at h
    rw [exec_call_of_full (s := s.withControl rs cmds sent) full]
    cases h; rfl

/-- Only the instructions that check something before their effect need an argument: the others are one record update. -/
theorem exec_withControl {i : Instr} (h : exec i s = .next t) :
    exec i (s.withControl rs cmds sent) = .next (t.withControl rs cmds sent) := by
  cases i
  case ret => exact exec_ret_withControl rs cmds sent h
  case call nnn => exact exec_call_withControl rs cmds sent h
  case skp x | sknp x => cases h; exact congrArg _ (skipOnKey_withControl s rs cmds sent _ x _)
  case drw | ldBcd | ldMemReg | ldRegMem =>
    cases h; exact congrArg Host.Outcome.next (accessAtI_withControl s rs cmds sent _ _ _ rfl)
  all_goals cases h; rfl

theorem fetchAndExecute_withControl (h : fetchAndExecute s = .next t) :
    fetchAndExecute (s.withControl rs cmds sent) = .next (t.withControl rs cmds sent) := by
  have same_fetch : (s.withControl rs cmds sent).fetchWord = s.fetchWord := rfl
  rcases fetchAndExecute_cases s with ⟨r, hf, hrun⟩ | ⟨w, e, hf, hd, hrun⟩ | ⟨w, i, hf, hd, hrun⟩
  · rw [hrun] at h
    cases h; simp only [fetchAndExecute, same_fetch, hf]; rfl
  · rw [hrun] at h
    cases h; simp only [fetchAndExecute, same_fetch, hf, hd]; rfl
  · rw [fetchAndExecute_ok (same_fetch.trans hf) hd]
    exact exec_withControl rs cmds sent (hrun ▸ h)

/-- A machine that differs in run-state, pending commands and replies runs the same cycle, and keeps its own. -/
theorem cycle_withControl (h : cycle s = .next t) :
    cycle (s.withControl rs cmds sent) = .next (t.withControl rs cmds sent) := by
  cases hw : s.wait with
  | some x =>
    rw [cycle_waiting hw] at h
    cases h
    rw [cycle_waiting (s := s.withControl rs cmds sent) hw, beginCycle_withControl, waitingStep_withControl,
      endCycle_withControl]
  | none =>
    rw [cycle_fetching hw] at h
    rw [cycle_fetching (s := s.withControl rs cmds sent) hw, beginCycle_withControl]
    cases hrun : fetchAndExecute s.beginCycle with
    | next u =>
      rw [hrun] at h
      cases h
      rw [fetchAndExecute_withControl rs cmds sent hrun, finishCycle, endCycle_withControl]
    | fault | refused => rw [hrun] at h; cases h

end

/-- A cycle keeps the control plane: it commutes with setting it to what it is. -/
theorem cycle_control_frame {s t : State} (h : cycle s = .next t) :
    t.runState = s.runState ∧ t.pending = s.pending ∧ t.replies = s.replies := by
  have fixed : t = t.withControl s.runState s.pending s.replies :=
    Host.Outcome.next.inj (h.symm.trans (cycle_withControl s.runState s.pending s.replies h))
  rw [fixed]
  exact ⟨rfl, rfl, rfl⟩

/-- Settles O19: both runs are cycles, of states that differ in the control plane alone. -/
theorem stepCommandRunsOneCycle : Obligations.StepCommandRunsOneCycle := by
  intro s rest hf hp
  refine ⟨fun hrun => ?_, fun hidle => ?_⟩
  · rw [step_of_command hf hp]
    simp only [runCommand, hrun]
  · have hnext : s.CycleNext := ⟨hf, .inr ⟨by rw [hp, List.head?_cons], hidle⟩⟩
    have hstep : step s = cycle { s with pending := rest } := by rw [step_of_cycleNext hnext, hp, List.tail_cons]
    obtain ⟨t, ht⟩ := cycle_answers_next { s with pending := rest }
    obtain ⟨hrs, hcmds, hsent⟩ := cycle_control_frame ht
    refine ⟨t, hstep.trans ht, ?_, hrs, hcmds, hsent⟩
    have same_cycle := cycle_withControl .running [] s.replies ht
    have own_replies : t.withControl .running [] s.replies = { t with pending := [], runState := .running } := by
      rw [State.withControl, hsent]
    rw [← own_replies, ← same_cycle]
    exact step_of_cycle (s := { s with pending := [], runState := .running }) hf rfl rfl

end Sys2Proof.Machine
end

section
/-! PROOFS. The decoder: it inverts the encoder, rejects exactly the illegal words, and chooses the one row a word matches
(spec 30_encoding.md R84 to R89, R95). -/

namespace Sys2Proof

/-! ### The word of each well-formed instruction decodes to that instruction (R84, R85) -/

/-- Outside 00E0 and 00EE a word of family 0 is SYS (R85, R86). -/
theorem decode0_of_ne {w : Word} (hcls : w ≠ 0x00E0) (hret : w ≠ 0x00EE) : decode0 w = .sys (nnnField w) := by
  rw [decode0, if_neg hcls, if_neg hret]

theorem encode_sys_ne {nnn a : Addr12} (h : nnn ≠ a) : encode (.sys nnn) ≠ encodeA12 0x0 a := by
  intro heq
  exact h (by simpa [encode] using congrArg nnnField heq)

theorem sysOperandOk_iff {nnn : Addr12} : sysOperandOk nnn = true ↔ nnn ≠ 0x0E0 ∧ nnn ≠ 0x0EE := by
  rw [sysOperandOk, Bool.and_eq_true, bne_iff_ne, bne_iff_ne]

theorem decodeWord_encode_sys {nnn : Addr12} (h : sysOperandOk nnn = true) :
    decodeWord (encode (.sys nnn)) = .ok (.sys nnn) := by
  obtain ⟨hcls, hret⟩ := sysOperandOk_iff.1 h
  have family : decodeWord (encode (.sys nnn)) = .ok (decode0 (encode (.sys nnn))) := by
    simp [decodeWord, encode]
  rw [family, decode0_of_ne (encode_sys_ne hcls) (encode_sys_ne hret)]
  simp [encode]

/-- Decoding reads the fields that encoding filled; only SYS's operands 0x0E0 and 0x0EE spell another row's word. -/
theorem decodeWord_encode {i : Instr} (h : i.wellFormed = true) : decodeWord (encode i) = .ok i := by
  cases i
  case sys nnn => exact decodeWord_encode_sys h
  case cls | ret => rfl
  case ldReg | orReg | andReg | xorReg | addReg | subReg | shrReg | subnReg | shlReg =>
    simp [encode, decodeWord, decode8]
  case skp | sknp => simp [encode, decodeWord, decodeE]
  case ldRegDt | ldRegKey | ldDtReg | ldStReg | addI | ldFont | ldBcd | ldMemReg | ldRegMem =>
    simp [encode, decodeWord, decodeF]
  all_goals simp [encode, decodeWord]

/-- Settles O1: format by format, the decoder finds the operands where the encoder put them. -/
theorem decodeInvertsEncode : Obligations.DecodeInvertsEncode :=
  fun _ => decodeWord_encode

/-! ### A word that decodes, decodes to a well-formed instruction (R89, R95) -/

/-- SYS 0x0E0 and SYS 0x0EE are never decoded: their words are those of CLS and RET. -/
theorem wellFormed_of_decodeWord {w : Word} {i : Instr} (h : decodeWord w = .ok i) : i.wellFormed = true := by
  have hword : encode i = w := encode_of_decodeWord h
  cases i
  case sys nnn =>
    have hcls : nnn ≠ 0x0E0 := by
      rintro rfl
      rw [← hword] at h
      exact absurd h (by decide)
    have hret : nnn ≠ 0x0EE := by
      rintro rfl
      rw [← hword] at h
      exact absurd h (by decide)
    exact sysOperandOk_iff.2 ⟨hcls, hret⟩
  all_goals rfl

/-- Settles O2: the instruction is well-formed, and every bit of the word is one of its fields. -/
theorem encodeInvertsDecode : Obligations.EncodeInvertsDecode :=
  fun _ _ h => ⟨wellFormed_of_decodeWord h, encode_of_decodeWord h⟩

/-! ### The illegal words, by the arithmetic of the word (R87) -/

theorem opField_toNat (w : Word) : (opField w).toNat = w.toNat / 0x1000 := by
  simp [opField, Nat.shiftRight_eq_div_pow]
  omega

theorem nField_toNat (w : Word) : (nField w).toNat = w.toNat % 0x10 := by
  simp [nField]

theorem kkField_toNat (w : Word) : (kkField w).toNat = w.toNat % 0x100 := by
  simp [kkField]

theorem decode8_error_iff (w : Word) :
    (∃ e, decode8 w = .error e) ↔ (nField w).toNat ∈ [0x8, 0x9, 0xA, 0xB, 0xC, 0xD, 0xF] := by
  unfold decode8
  split
  case h_10 =>
    have := (nField w).isLt
    simp only [imp_false] at *
    simp
    omega
  all_goals simp [*]

theorem decodeE_error_iff (w : Word) : (∃ e, decodeE w = .error e) ↔ (kkField w).toNat ∉ [0x9E, 0xA1] := by
  unfold decodeE
  split
  case h_3 =>
    simp only [imp_false] at *
    simp [*]
  all_goals simp [*]

theorem decodeF_error_iff (w : Word) : (∃ e, decodeF w = .error e) ↔
    (kkField w).toNat ∉ [0x07, 0x0A, 0x15, 0x18, 0x1E, 0x29, 0x33, 0x55, 0x65] := by
  unfold decodeF
  split
  case h_10 =>
    simp only [imp_false] at *
    simp [*]
  all_goals simp [*]

/-- Families 5 and 9 are legal where the last nibble is 0. -/
theorem ite_error_iff {i : Instr} {e : DecodeError} (w : Word) :
    (∃ e', (if nField w = 0 then .ok i else .error e) = (.error e' : Except DecodeError Instr)) ↔
      (nField w).toNat ≠ 0 := by
  split
  · rename_i h; simp [h]
  · rename_i h
    exact iff_of_true ⟨e, rfl⟩ fun hzero => h (BitVec.eq_of_toNat_eq hzero)

/-- Settles O3: only families 5, 8, 9, E and F hold illegal words, and each tests one field. -/
theorem rejectedWordsAreTheIllegalOnes : Obligations.RejectedWordsAreTheIllegalOnes := by
  intro w
  rw [← opField_toNat, ← nField_toNat, ← kkField_toNat]
  unfold decodeWord
  split
  case h_6 hop | h_10 hop => rw [ite_error_iff]; simp [hop]
  case h_9 hop => simp [hop, decode8_error_iff]
  case h_15 hop => simp [hop, decodeE_error_iff]
  case h_16 =>
    have hop : (opField w).toNat = 15 := by
      have := (opField w).isLt
      simp only [imp_false] at *
      omega
    simp [hop, decodeF_error_iff]
  all_goals simp [*]

/-! ### The row a word matches is that of the instruction it decodes to (R84, R86) -/

section
variable {w p : Word}

theorem opField_of_mask (h : w &&& 0xF000 = p) : opField w = opField p := by
  subst h
  ext i hi; interval_cases i <;> simp [opField]

theorem opField_nField_of_mask (h : w &&& 0xF00F = p) : opField w = opField p ∧ nField w = nField p := by
  subst h
  constructor <;> (ext i hi; interval_cases i <;> simp [opField, nField])

theorem opField_kkField_of_mask (h : w &&& 0xF0FF = p) : opField w = opField p ∧ kkField w = kkField p := by
  subst h
  constructor <;> (ext i hi; interval_cases i <;> simp [opField, kkField])

end

/-- The mask of the row leaves the fields that select the row's arm of the decoder, except that SYS's row also holds the
words of CLS and RET. -/
theorem decodeWord_of_matchesWord {i : Instr} {w : Word} (h : (opcodeRow i).matchesWord w = true)
    (hcls : w ≠ 0x00E0) (hret : w ≠ 0x00EE) : ∃ j, decodeWord w = .ok j ∧ opcodeRow j = opcodeRow i := by
  rw [OpcodeRow.matchesWord, beq_iff_eq] at h
  cases i <;> simp only [opcodeRow] at h
  case cls => exact absurd ((BitVec.and_allOnes (x := w)).symm.trans h) hcls
  case ret => exact absurd ((BitVec.and_allOnes (x := w)).symm.trans h) hret
  case sys =>
    refine ⟨.sys (nnnField w), ?_, rfl⟩
    rw [decodeWord, opField_of_mask h, ← decode0_of_ne hcls hret]
    simp [opField]
  case seReg | sneReg =>
    obtain ⟨hop, hn⟩ := opField_nField_of_mask h
    simp only [decodeWord, hop, hn]
    simp [opField, nField]
    rfl
  case ldReg | orReg | andReg | xorReg | addReg | subReg | shrReg | subnReg | shlReg =>
    obtain ⟨hop, hn⟩ := opField_nField_of_mask h
    simp only [decodeWord, decode8, hop, hn]
    simp [opField, nField]
    rfl
  case skp | sknp =>
    obtain ⟨hop, hkk⟩ := opField_kkField_of_mask h
    simp only [decodeWord, decodeE, hop, hkk]
    simp [opField, kkField]
    rfl
  case ldRegDt | ldRegKey | ldDtReg | ldStReg | addI | ldFont | ldBcd | ldMemReg | ldRegMem =>
    obtain ⟨hop, hkk⟩ := opField_kkField_of_mask h
    simp only [decodeWord, decodeF, hop, hkk]
    simp [opField, kkField]
    rfl
  all_goals
    have hop := opField_of_mask h
    simp only [decodeWord, hop]
    simp [opField]
    rfl

/-- Settles O4: both rows are the row of the instruction that the word decodes to. -/
theorem patternsOverlapOnlyAtClsAndRet : Obligations.PatternsOverlapOnlyAtClsAndRet := by
  refine ⟨fun i j w hi hj => ?_, rfl, rfl, rfl, rfl⟩
  by_cases hcls : w = 0x00E0
  · exact .inr (.inl hcls)
  by_cases hret : w = 0x00EE
  · exact .inr (.inr hret)
  obtain ⟨k, hk, hki⟩ := decodeWord_of_matchesWord hi hcls hret
  obtain ⟨k', hk', hkj⟩ := decodeWord_of_matchesWord hj hcls hret
  cases hk.symm.trans hk'
  exact .inl (hki.symm.trans hkj)

/-- Settles O5: the words are closed terms, and the decoder computes. -/
theorem sampleWordsDecode : Obligations.SampleWordsDecode := by
  unfold Obligations.SampleWordsDecode
  decide

end Sys2Proof
end

section
/-! PROOFS. What each instruction can do, and what it leaves unchanged (spec 10_state.md R23 to R38; 20_memory.md R60;
40_control_flow.md R102, R103, R105, R111; 44_display_keypad.md R199). -/

namespace Sys2Proof.Machine

/-! ### The effect of an instruction whose own check passes -/

/-- `t` is what `i` makes of `s` where nothing is raised; for the instructions that check something first, the check that
passed and the effect that followed. -/
def Completes (s t : State) : Instr → Prop
  | .ret => ∃ h : 0 < s.sp.val, t = { s with sp := ⟨s.sp.val - 1, by omega⟩, pc := s.stack[s.sp.val - 1] }
  | .call nnn => ∃ h : s.sp.val < 16,
      t = { s with stack := s.stack.set s.sp.val (s.pc + 2), sp := ⟨s.sp.val + 1, by omega⟩, pc := zext12 nnn }
  | .skp x => t = { s with pc := if s.keys.getLsbD (s.reg x).toNat = true then s.pc + 4 else s.pc + 2 }
  | .sknp x => t = { s with pc := if s.keys.getLsbD (s.reg x).toNat = true then s.pc + 2 else s.pc + 4 }
  | .drw x y n => t = (s.drawn x y n.toNat).advance
  | .ldBcd x => s.i.toNat + 3 ≤ 4096 ∧ t = (s.storeBytes s.i.toNat (bcdDigits (s.reg x))).advance
  | .ldMemReg x => s.i.toNat + (x.val + 1) ≤ 4096 ∧ t = (s.storeBytes s.i.toNat (s.regBlock x)).advance
  | .ldRegMem x => t = (s.loadRegBlock x s.i.toNat).advance
  | i => exec i s = .next t

/-- Everything an instruction can do: it raises the fault of its own check and does nothing else, or its check passes, it
leaves `FAULT`, and it has its effect. -/
theorem exec_cases {i : Instr} {s t : State} (h : exec i s = .next t) :
    (∃ r, Raises s i r ∧ t = s.raise r) ∨ (t.fault = s.fault ∧ Completes s t i) := by
  rcases exec_raises_or_completes h with hraise | ⟨hno, hfault⟩
  · exact .inl hraise
  refine .inr ⟨hfault, ?_⟩
  cases i
  case ret =>
    have hpos : 0 < s.sp.val := Nat.pos_of_ne_zero fun hempty => hno _ (.underflow hempty)
    rw [exec_ret_of_pos hpos] at h
    cases h; exact ⟨hpos, rfl⟩
  case call nnn =>
    have hroom : s.sp.val < 16 := by
      have hfull : s.sp.val ≠ 16 := fun hfull => hno _ (.overflow nnn hfull)
      omega
    rw [exec_call_of_lt hroom] at h
    cases h; exact ⟨hroom, rfl⟩
  case skp x =>
    rw [exec_skp_of_key (Nat.le_of_not_gt fun hgt => hno _ (.skp x hgt))] at h
    cases h; rfl
  case sknp x =>
    rw [exec_sknp_of_key (Nat.le_of_not_gt fun hgt => hno _ (.sknp x hgt))] at h
    cases h; rfl
  case drw x y n =>
    have hin : n = 0 ∨ s.i.toNat + n.toNat - 1 ≤ 0xFFF := by
      by_contra hout
      obtain ⟨hn, hgt⟩ := not_or.1 hout
      exact hno _ (.address _ .read n.toNat rfl (fun h0 => hn (BitVec.eq_of_toNat_eq h0)) (by omega))
    rw [exec_drw_in_bounds hin] at h
    cases h; rfl
  case ldBcd x =>
    have hin : s.i.toNat + 3 ≤ 4096 :=
      Nat.le_of_not_gt fun hout => hno _ (.address _ .write 3 rfl (by decide) hout)
    rw [exec_ldBcd_in_bounds (by omega)] at h
    cases h; exact ⟨hin, rfl⟩
  case ldMemReg x =>
    have hin : s.i.toNat + (x.val + 1) ≤ 4096 :=
      Nat.le_of_not_gt fun hout => hno _ (.address _ .write (x.val + 1) rfl (by omega) hout)
    rw [exec_ldMemReg_in_bounds (by omega)] at h
    cases h; exact ⟨hin, rfl⟩
  case ldRegMem x =>
    have hin : s.i.toNat + (x.val + 1) ≤ 4096 :=
      Nat.le_of_not_gt fun hout => hno _ (.address _ .read (x.val + 1) rfl (by omega) hout)
    rw [exec_ldRegMem_in_bounds (by omega)] at h
    exact (Host.Outcome.next.inj h).symm
  all_goals exact h

/-! ### The frames -/

/-- Settles O32: a fault writes `FAULT` alone, and no effect writes a field of the host. -/
theorem instructionNeverTouchesTheHost : Obligations.InstructionNeverTouchesTheHost := by
  intro i s t h
  rcases exec_cases h with ⟨r, _, rfl⟩ | ⟨_, hc⟩
  · simp
  cases i
  case ret | call | ldBcd | ldMemReg => obtain ⟨_, rfl⟩ := hc; simp
  case ldRegMem => subst hc; simp
  all_goals cases hc; simp

/-- Settles O31: a fault writes `FAULT` alone, and each effect writes only what its instruction is named for. -/
theorem instructionChangesOnlyItsSpecialState : Obligations.InstructionChangesOnlyItsSpecialState := by
  intro i s t h
  rcases exec_cases h with ⟨r, _, rfl⟩ | ⟨_, hc⟩
  · simp
  cases i
  case ret | call | ldBcd | ldMemReg => obtain ⟨_, rfl⟩ := hc; simp
  case ldRegMem => subst hc; simp
  all_goals cases hc; simp

/-- Settles O29: the effects that write registers are one register, a result and `VF`, `VF` alone, and a loaded block. -/
theorem instructionChangesOnlyItsRegisters : Obligations.InstructionChangesOnlyItsRegisters := by
  intro i s t h
  rcases exec_cases h with ⟨r, _, rfl⟩ | ⟨_, hc⟩
  · exact fun _ _ => rfl
  cases i
  case ldImm | addImm | ldReg | orReg | andReg | xorReg | rnd | ldRegDt =>
    cases hc
    obtain ⟨_, hregs, _⟩ := setReg_advance_frame s _ _
    exact hregs
  case addReg | subReg | shrReg | subnReg | shlReg =>
    cases hc
    obtain ⟨_, hregs, _⟩ := setRegFlag_advance_frame s _ _ _
    exact hregs
  case drw x y n => cases hc; exact drawn_advance_sameRegisters s x y n.toNat
  case ldRegMem x =>
    subst hc
    intro r hr
    exact loadRegBlock_advance_kept s _ (by simpa [writtenRegs] using hr)
  case ret | call | ldBcd | ldMemReg => obtain ⟨_, rfl⟩ := hc; exact fun _ _ => rfl
  all_goals cases hc; exact fun _ _ => rfl

/-- Settles O30: only the two block stores write memory, and a block store leaves the bytes outside its block. -/
theorem instructionChangesOnlyItsBytes : Obligations.InstructionChangesOnlyItsBytes := by
  intro i s t h
  rcases exec_cases h with ⟨r, _, rfl⟩ | ⟨_, hc⟩
  · exact fun _ _ => rfl
  cases i
  case ldBcd x =>
    obtain ⟨_, rfl⟩ := hc
    exact fun _ hb => Memory.read_writeBlock_outside hb
  case ldMemReg x =>
    obtain ⟨_, rfl⟩ := hc
    intro b hb
    exact Memory.read_writeBlock_outside (by rwa [regBlock_length])
  case ldRegMem x => subst hc; exact loadRegBlock_advance_sameMemory s x _
  case ret | call => obtain ⟨_, rfl⟩ := hc; exact fun _ _ => rfl
  all_goals cases hc; exact fun _ _ => rfl

/-! ### The program counter (R102) -/

/-- `nnn + V0` is at most 0xFFF + 0xFF, so the sum of JP V0 does not wrap (R111). -/
theorem jpV0_target_toNat (nnn : Addr12) (b : Byte) : (zext12 nnn + zext8 b).toNat = nnn.toNat + b.toNat := by
  rw [add_zext8_toNat, zext12_toNat]
  omega

/-- Settles O33: a fault leaves `PC`, and each effect writes it once. -/
theorem instructionSetsPcByTheTable : Obligations.InstructionSetsPcByTheTable := by
  intro i s t hs h
  rcases exec_cases h with ⟨r, _, rfl⟩ | ⟨hfault, hc⟩
  · exact ⟨fun _ => rfl, nofun⟩
  refine ⟨fun hf => absurd (hfault.trans hs) hf, fun _ => ?_⟩
  cases i
  case jp nnn => cases hc; exact zext12_toNat nnn
  case call nnn => obtain ⟨hroom, rfl⟩ := hc; exact ⟨zext12_toNat nnn, hroom, by simp⟩
  case jpV0 nnn => cases hc; exact jpV0_target_toNat nnn (s.reg 0)
  case ret => obtain ⟨_, rfl⟩ := hc; exact ⟨by omega, rfl⟩
  case seImm x kk => cases (exec_seImm x kk s).symm.trans hc; rfl
  case sneImm x kk => cases (exec_sneImm x kk s).symm.trans hc; rfl
  case seReg x y => cases (exec_seReg x y s).symm.trans hc; rfl
  case sneReg x y => cases (exec_sneReg x y s).symm.trans hc; rfl
  case ldRegMem x => subst hc; exact loadRegBlock_advance_pc s x _
  case ldBcd | ldMemReg => obtain ⟨_, rfl⟩ := hc; rfl
  all_goals cases hc; rfl

/-- Settles O34: each of the three is one write of `PC`. -/
theorem sysAndJumpsSetOnlyPc : Obligations.SysAndJumpsSetOnlyPc := by
  intro nnn s
  exact ⟨rfl, ⟨_, rfl, zext12_toNat nnn, rfl, fun _ _ => rfl, fun _ _ => rfl⟩,
    ⟨_, rfl, jpV0_target_toNat nnn (s.reg 0), rfl, fun _ _ => rfl, fun _ _ => rfl⟩⟩

/-- Settles O58: LD Vx, K writes `WAIT` and `PC`. -/
theorem keyWaitBegins : Obligations.KeyWaitBegins :=
  fun _ _ => rfl

end Sys2Proof.Machine
end

section
/-! PROOFS. The cycle and the step: what comes before the instruction, the instruction, the waiting step, and a fault (spec
40_control_flow.md R100, R101; 43_timers.md R181; 44_display_keypad.md R196, R199; 60_exceptions.md R221, R232, R257). -/

namespace Sys2Proof.Machine

/-! ### Before the instruction -/

/-- Settles O7: the timers' decrements do not wrap, and the inputs are the oldest lined up or the free values. -/
theorem cycleBeginsWithTimersAndInputs : Obligations.CycleBeginsWithTimersAndInputs := by
  intro s
  refine ⟨tick_toNat s.dt, tick_toNat s.st, fun input rest hin => ?_, fun hin => ?_, rfl, rfl⟩
  · simp [State.nextInput, hin]
  · simp [State.nextInput, hin]

/-! ### The instruction -/

theorem endCycle_prevKeys (s : State) :
    s.endCycle.prevKeys = if s.fault = none then s.keys else s.prevKeys := by
  cases hf : s.fault with
  | none => rw [endCycle_unfaulted hf, if_pos rfl]
  | some r => rw [endCycle_faulted hf, if_neg nofun]

theorem cycle_runs_fetched {s : State} {i : Instr} (hw : s.wait = none) (hi : s.Fetches i) :
    ∃ t, exec i s.beginCycle = .next t ∧
      cycle s = .next { t with prevKeys := if t.fault = none then t.keys else t.prevKeys } := by
  obtain ⟨t, ht⟩ := exec_answers_next i s.beginCycle
  exact ⟨t, ht, by rw [cycle_of_fetches hw hi, ht, finishCycle, endCycle_eq, endCycle_prevKeys]⟩

/-- Settles O6: either way the step is the cycle that fetches `i`. -/
theorem stepRunsDecodedInstruction : Obligations.StepRunsDecodedInstruction := by
  intro s i hf hw hi
  refine ⟨fun hp hrun => ?_, fun rest hp hidle => ?_⟩
  · rw [step_of_cycle hf hp hrun]
    exact cycle_runs_fetched hw hi
  · rw [step_of_cycleNext ⟨hf, .inr ⟨by rw [hp, List.head?_cons], hidle⟩⟩, hp, List.tail_cons]
    exact cycle_runs_fetched (s := { s with pending := rest }) hw hi

/-- The step of a Running machine that fetches `i`, where `i` completes. -/
theorem step_of_completes {s u : State} {i : Instr} (hs : s.AboutToCycle) (hw : s.wait = none) (hi : s.Fetches i)
    (hu : exec i s.beginCycle = .next u) (hf : u.fault = none) : step s = .next { u with prevKeys := u.keys } := by
  obtain ⟨hsf, hp, hrun⟩ := hs
  rw [step_of_cycle hsf hp hrun, cycle_of_fetches hw hi, hu, finishCycle, endCycle_unfaulted hf]

/-! ### Progress -/

theorem runCommand_answers_next (c : HostCommand) (s : State) : ∃ t, runCommand c s = .next t := by
  cases c with
  | start | cpu | mem => exact ⟨_, rfl⟩
  | stop => cases hr : s.runState <;> exact ⟨_, by simp only [runCommand, hr]; rfl⟩
  | step =>
    cases hr : s.runState with
    | running => exact ⟨s, by simp only [runCommand, hr]⟩
    | created | stopped => simp only [runCommand, hr]; exact cycle_answers_next s

theorem step_of_idle {s : State} (hf : s.fault = none) (hp : s.pending = []) (hr : s.runState ≠ .running) :
    step s = .next s := by
  cases hs : s.runState with
  | running => exact absurd hs hr
  | created | stopped => simp only [step, hf, driverStep, hp, hs]

/-- Settles O22: neither a command nor a cycle is due. -/
theorem machineThatIsNotRunningIsIdle : Obligations.MachineThatIsNotRunningIsIdle :=
  fun _ => step_of_idle

/-- Settles O11: a command and a cycle always answer a next state, and an idle machine answers itself. -/
theorem unfaultedMachineAlwaysSteps : Obligations.UnfaultedMachineAlwaysSteps := by
  intro s hf
  cases hp : s.pending with
  | cons c rest => rw [step_of_command hf hp]; exact runCommand_answers_next c _
  | nil =>
    by_cases hr : s.runState = .running
    · rw [step_of_cycle hf hp hr]; exact cycle_answers_next s
    · exact ⟨s, step_of_idle hf hp hr⟩

/-- Settles O12: `step` looks at `FAULT` first. -/
theorem faultedMachineHasNoStep : Obligations.FaultedMachineHasNoStep := by
  intro s r hf
  simp only [step, hf]

/-! ### The sound timer -/

/-- Settles O9: as for the delay timer, but of the two instructions it is FX18 that writes it. -/
theorem soundTimerCountsDownEveryCycle : Obligations.SoundTimerCountsDownEveryCycle := by
  intro s t hs h
  rw [step_of_cycleNext hs] at h
  rcases cycle_timers h with ⟨_, hst⟩ | ⟨x, _, _, _, hst⟩ | ⟨x, hw, hi, hst, _⟩
  · exact .inl (by rw [hst, tick_toNat])
  · exact .inl (by rw [hst, tick_toNat])
  · exact .inr ⟨x, hw, hi, hst⟩

/-- Settles O53: the first cycle leaves a Running machine whose delay timer is the register, and the next one counts it
down before FX07 reads it. -/
theorem timerSetThenReadIsOneLess : Obligations.TimerSetThenReadIsOneLess := by
  intro x y s t u hs hw hi ht hj hu
  have set_and_running : t.dt = s.reg x ∧ t.wait = none ∧ t.AboutToCycle := by
    have ⟨hf, _⟩ := hs
    rw [step_of_completes hs hw hi rfl hf] at ht
    cases ht
    exact ⟨rfl, hw, hs⟩
  obtain ⟨hdt, hw', hf, hp, hrun⟩ := set_and_running
  rw [step_of_cycle hf hp hrun] at hu
  exact ⟨hdt, by rw [cycle_ldRegDt_reg hw' hj hu, tick_toNat, hdt]⟩

/-! ### A fault -/

theorem raises_pc {s : State} {i : Instr} {r : FaultRecord} (h : Raises s i r) : r.pc = s.pc := by
  cases h <;> rfl

@[simp] theorem waitingStep_fault (s : State) (x : Reg) : (s.waitingStep x).fault = s.fault := by
  rw [waitingStep_eq]

/-- A cycle that raises a fault does nothing after its start but write the record, wherever the fault comes from. -/
theorem cycle_faulting {s t : State} {r : FaultRecord} (hf : s.fault = none) (h : cycle s = .next t)
    (hr : t.fault = some r) : s.wait = none ∧ t = s.beginCycle.raise r ∧ r.pc = s.pc := by
  rcases cycle_cases h with ⟨x, _, rfl⟩ | ⟨hw, r', rfl, hcause⟩ | ⟨hw, i, u, _, hu, rfl⟩
  · rw [endCycle_fault, waitingStep_fault, beginCycle_fault, hf] at hr
    cases hr
  · cases hr
    refine ⟨hw, rfl, ?_⟩
    rcases hcause with herr | ⟨w, e, _, _, rfl⟩
    · obtain ⟨_, rfl⟩ := fetchWord_error.1 herr
      rfl
    · rfl
  · rw [endCycle_fault] at hr
    rcases exec_raises_or_completes hu with ⟨r', hr', rfl⟩ | ⟨_, hfault⟩
    · cases hr
      have hpc : r.pc = s.beginCycle.pc := raises_pc hr'
      exact ⟨hw, endCycle_faulted rfl, hpc⟩
    · cases (hfault.trans hf).symm.trans hr

/-- Settles O13: the start of the cycle does not touch `PC`, `PREV_KEYS` and `WAIT`, which was none. -/
theorem faultingCycleLeavesOnlyItsRecord : Obligations.FaultingCycleLeavesOnlyItsRecord := by
  intro s t r hs h hr
  rw [step_of_cycleNext hs] at h
  obtain ⟨hf, _⟩ := hs
  obtain ⟨hw, rfl, hpc⟩ := cycle_faulting (s := { s with pending := s.pending.tail }) hf h hr
  exact ⟨rfl, hpc, rfl, rfl, hw, tick_toNat s.dt, tick_toNat s.st⟩

/-! ### The keys that a cycle samples (R100, R196) -/

theorem cycle_keys {s t : State} (h : cycle s = .next t) : t.keys = s.nextInput.keys := by
  rcases cycle_cases h with ⟨x, _, rfl⟩ | ⟨_, r, rfl, _⟩ | ⟨_, i, u, _, hu, rfl⟩
  · rw [endCycle_eq, waitingStep_eq]
    rfl
  · rfl
  · obtain ⟨_, _, _, _, _, _, hkeys, _⟩ := instructionNeverTouchesTheHost i s.beginCycle u hu
    rw [endCycle_eq]
    exact hkeys

theorem endCycle_samples {s : State} (h : s.endCycle.fault = none) : s.endCycle.prevKeys = s.endCycle.keys := by
  rw [endCycle_fault] at h
  rw [endCycle_unfaulted h]

theorem cycle_prevKeys {s t : State} (h : cycle s = .next t) (hf : t.fault = none) : t.prevKeys = t.keys := by
  rcases cycle_cases h with ⟨x, _, rfl⟩ | ⟨_, r, rfl, _⟩ | ⟨_, i, u, _, _, rfl⟩
  · exact endCycle_samples hf
  · cases hf
  · exact endCycle_samples hf

/-- Settles O17: the keys are those the cycle began with, and its end makes them `PREV_KEYS`. -/
theorem unfaultedCycleSamplesItsKeys : Obligations.UnfaultedCycleSamplesItsKeys := by
  intro s t hs h hf
  rw [step_of_cycleNext hs] at h
  have hkeys : t.keys = s.nextInput.keys := cycle_keys (s := { s with pending := s.pending.tail }) h
  exact ⟨hkeys, (cycle_prevKeys h hf).trans hkeys⟩

/-! ### The waiting step (R101) -/

section
variable {keys prev : BitVec 16} {k : Nat}

theorem newlyPressed_iff : newlyPressed keys prev k = true ↔ keys.getLsbD k = true ∧ prev.getLsbD k = false := by
  simp [newlyPressed, keyDown]

theorem not_newlyPressed_iff :
    newlyPressed keys prev k = false ↔ (keys.getLsbD k = true → prev.getLsbD k = true) := by
  rw [← Bool.not_eq_true, newlyPressed_iff, not_and, Bool.not_eq_false]

/-- A newly pressed key below which no key is newly pressed is the one `lowestNewKey` finds. -/
theorem lowestNewKey_of_lowest (hk : k < 16) (hnew : newlyPressed keys prev k = true)
    (hmin : ∀ j < k, newlyPressed keys prev j = false) : lowestNewKey keys prev = some k := by
  cases h : lowestNewKey keys prev with
  | none => exact absurd (hnew.symm.trans (lowestNewKey_eq_none h k hk)) nofun
  | some k' =>
    obtain ⟨_, hnew', hmin'⟩ := lowestNewKey_eq_some h
    rcases Nat.lt_trichotomy k k' with hlt | rfl | hgt
    · exact absurd (hnew.symm.trans (hmin' k hlt)) nofun
    · rfl
    · exact absurd (hnew'.symm.trans (hmin k' hgt)) nofun

theorem lowestNewKey_of_none (h : ∀ k < 16, newlyPressed keys prev k = false) : lowestNewKey keys prev = none := by
  cases hl : lowestNewKey keys prev with
  | none => rfl
  | some k =>
    obtain ⟨hk, hnew, _⟩ := lowestNewKey_eq_some hl
    exact absurd (hnew.symm.trans (h k hk)) nofun

end

section
variable {s : State} {x : Reg}

theorem waitingStep_resolves {k : Nat} (h : lowestNewKey s.keys s.prevKeys = some k) :
    s.waitingStep x = { s with wait := none }.setReg x (BitVec.ofNat 8 k) := by
  simp only [State.waitingStep, h]

theorem waitingStep_waits (h : lowestNewKey s.keys s.prevKeys = none) : s.waitingStep x = s := by
  simp only [State.waitingStep, h]

/-- The step of a Running machine that waits for a key. -/
theorem step_of_waiting (hs : s.AboutToCycle) (hw : s.wait = some x) :
    step s = .next { s.beginCycle.waitingStep x with prevKeys := s.nextInput.keys } := by
  obtain ⟨hf, hp, hrun⟩ := hs
  have unfaulted : (s.beginCycle.waitingStep x).fault = none := (waitingStep_fault _ x).trans hf
  have sampled : (s.beginCycle.waitingStep x).keys = s.nextInput.keys := by rw [waitingStep_eq]; rfl
  rw [step_of_cycle hf hp hrun, cycle_waiting hw, endCycle_unfaulted unfaulted, ← sampled]

end

/-- Settles O15: the search for the lowest newly pressed key finds the given one, or none. -/
theorem waitingCycleDeliversLowestNewKey : Obligations.WaitingCycleDeliversLowestNewKey := by
  intro s x hs hw
  refine ⟨fun k hk hdown hup hmin => ?_, fun hnone => ?_⟩
  · have found : lowestNewKey s.beginCycle.keys s.beginCycle.prevKeys = some k :=
      lowestNewKey_of_lowest hk (newlyPressed_iff.2 ⟨hdown, hup⟩) fun j hj => not_newlyPressed_iff.2 (hmin j hj)
    refine ⟨_, step_of_waiting hs hw, ?_⟩
    rw [waitingStep_resolves found]
    refine ⟨?_, fun r hr => ?_, rfl⟩
    · have key_fits : k < 2 ^ 8 := by omega
      exact (congrArg BitVec.toNat (setReg_reg_same _ x _)).trans (Nat.mod_eq_of_lt key_fits)
    · exact setReg_reg_ne _ _ (List.ne_of_not_mem_cons hr)
  · have none_found : lowestNewKey s.beginCycle.keys s.beginCycle.prevKeys = none :=
      lowestNewKey_of_none fun k hk => not_newlyPressed_iff.2 (hnone k hk)
    rw [step_of_waiting hs hw, waitingStep_waits none_found]

/-- Settles O16: FX0A's cycle makes its keys `PREV_KEYS`, so that none of them is newly pressed in the next. -/
theorem heldKeyDoesNotEndTheWait : Obligations.HeldKeyDoesNotEndTheWait := by
  intro s t x hs hw hi h
  have ⟨hf, _⟩ := hs
  rw [step_of_completes hs hw hi rfl hf] at h
  have ht := (Host.Outcome.next.inj h).symm
  have waits : t.AboutToCycle ∧ t.wait = some x := by
    rw [ht]
    exact ⟨hs, rfl⟩
  obtain ⟨hs', hw'⟩ := waits
  obtain ⟨_, goes_on_waiting⟩ := waitingCycleDeliversLowestNewKey t x hs' hw'
  subst ht
  exact ⟨rfl, fun hheld => ⟨_, goes_on_waiting hheld, rfl, rfl, rfl⟩⟩

end Sys2Proof.Machine
end

section
/-! PROOFS. The invariant: it holds after construction, every step keeps it, and so it holds of every reachable state (spec
10_state.md R26, R27, R39; 60_exceptions.md R221, R230, R251; 70_reset_and_hazards.md R260). -/

namespace Sys2Proof.Machine

/-! ### Construction -/

/-- Writing what the unlisted addresses read as lists nothing. -/
theorem writeBlock_unlisted {a : Nat} {bytes : List Byte}
    (h : ∀ k (hk : k < bytes.length), bytes[k] = Memory.unlisted (a + k)) : Memory.writeBlock [] a bytes = [] := by
  induction bytes generalizing a with
  | nil => rfl
  | cons b bytes ih =>
    have hb : b = Memory.unlisted a := h 0 (Nat.succ_pos _)
    rw [Memory.writeBlock, Memory.write, if_pos hb]
    refine ih fun k hk => ?_
    rw [Nat.add_assoc, Nat.add_comm 1 k]
    exact h (k + 1) (Nat.succ_lt_succ hk)

theorem constructedMemory_default : constructedMemory defaultFont [] = [] := by
  have font_unlisted : Memory.writeBlock [] 0x000 defaultFont.toList = [] :=
    writeBlock_unlisted fun k _ => by simp [defaultFont, Memory.unlisted]
  rw [constructedMemory, font_unlisted]
  rfl

/-- Settles O25: loading the default font lists no address. -/
theorem resetIsTheDefaultConstruction : Obligations.ResetIsTheDefaultConstruction := by
  unfold Obligations.ResetIsTheDefaultConstruction
  rw [construct_eq_some (Nat.zero_le _), constructedMemory_default]
  rfl

theorem inv_of_construct {params : Params} {font : Vector Byte 80} {image : List Byte} {s : State}
    (h : State.construct params font image = some s) : s.Inv := by
  rcases Nat.lt_or_ge 3584 image.length with hlong | hfits
  · rw [construct_eq_none hlong] at h
    cases h
  · rw [construct_eq_some hfits] at h
    cases h
    exact ⟨Memory.wf_writeBlock (wf_fontLoad font) (by omega), show (0x200 : Word).toNat ≤ 0x10FE by decide,
      fun j => (congrArg BitVec.toNat (reset_stack j)).le.trans (Nat.zero_le _), nofun⟩

/-- Settles O26: the reset state is a construction. -/
theorem resetMeetsTheInvariant : Obligations.ResetMeetsTheInvariant :=
  inv_of_construct resetIsTheDefaultConstruction

/-! ### An instruction -/

section
variable {i : Instr} {s t : State}

/-- The two stores write within the bounds they checked, and nothing else writes memory. -/
theorem exec_mem_wf (hmem : s.mem.wf) (h : exec i s = .next t) : t.mem.wf := by
  rcases exec_cases h with ⟨r, _, rfl⟩ | ⟨_, hc⟩
  · exact hmem
  cases i
  case ldBcd x =>
    obtain ⟨hin, rfl⟩ := hc
    exact Memory.wf_writeBlock hmem hin
  case ldMemReg x =>
    obtain ⟨hin, rfl⟩ := hc
    exact Memory.wf_writeBlock hmem (by rwa [regBlock_length])
  case ldRegMem x =>
    subst hc
    rw [advance_mem, loadRegBlock_mem]
    exact hmem
  case ret | call => obtain ⟨_, rfl⟩ := hc; exact hmem
  all_goals cases hc; exact hmem

/-- `PC + 2` of an instruction that was fetched is at most 0x1000, and `PC + 4` at most 0x1002 (R27). -/
theorem pc_add_toNat_le {pc : Word} (h : pc.toNat ≤ 0xFFE) : (pc + 2).toNat ≤ 0x1000 ∧ (pc + 4).toNat ≤ 0x1002 := by
  have add_two : (pc + 2).toNat = (pc.toNat + 2) % 65536 := BitVec.toNat_add pc 2
  have add_four : (pc + 4).toNat = (pc.toNat + 4) % 65536 := BitVec.toNat_add pc 4
  omega

/-- A push stores `PC + 2`, and nothing else writes the stack. -/
theorem exec_stack_le (hstack : ∀ j : Fin 16, s.stack[j.val].toNat ≤ 0x1000) (hpc : s.pc.toNat ≤ 0xFFE)
    (h : exec i s = .next t) (j : Fin 16) : t.stack[j.val].toNat ≤ 0x1000 := by
  by_cases hsame : t.stack = s.stack
  · rw [hsame]
    exact hstack j
  obtain ⟨_, only_call, _⟩ := instructionChangesOnlyItsSpecialState i s t h
  obtain ⟨nnn, rfl⟩ := only_call hsame
  rcases exec_cases h with ⟨r, _, rfl⟩ | ⟨_, hroom, rfl⟩
  · exact absurd rfl hsame
  · obtain ⟨pushed_le, _⟩ := pc_add_toNat_le hpc
    rw [stack_set_entry]
    split
    · exact pushed_le
    · exact hstack j

/-- A jump goes at most to 0xFFF + 0xFF, a return to a stack entry, and a skip to `PC + 4` (R26). -/
theorem exec_pc_le (hstack : ∀ j : Fin 16, s.stack[j.val].toNat ≤ 0x1000) (hpc : s.pc.toNat ≤ 0xFFE)
    (hs : s.fault = none) (h : exec i s = .next t) (ht : t.fault = none) : t.pc.toNat ≤ 0x10FE := by
  obtain ⟨_, table⟩ := instructionSetsPcByTheTable i s t hs h
  have target := table ht
  obtain ⟨next_le, skip_le⟩ := pc_add_toNat_le hpc
  cases i
  case jp nnn => simp only at target; omega
  case call nnn => obtain ⟨target, _⟩ := target; omega
  case jpV0 nnn => simp only at target; omega
  case ret =>
    obtain ⟨hj, target⟩ := target
    have entry_le : s.stack[s.sp.val - 1].toNat ≤ 0x1000 := hstack ⟨s.sp.val - 1, hj⟩
    rw [target]
    omega
  case seImm | sneImm | seReg | sneReg | skp | sknp =>
    simp only at target
    split at target <;> (rw [target]; omega)
  all_goals
    simp only at target
    rw [target]
    omega

theorem raise_inv {r : FaultRecord} (hs : s.Inv) (hpc : r.pc = s.pc) (hw : s.wait = none) : (s.raise r).Inv := by
  obtain ⟨hmem, hbound, hstack, _⟩ := hs
  refine ⟨hmem, hbound, hstack, fun r' hr' => ?_⟩
  cases hr'
  exact ⟨hpc, hw⟩

theorem exec_inv (hs : s.Inv) (hf : s.fault = none) (hw : s.wait = none) (hpc : s.pc.toNat ≤ 0xFFE)
    (h : exec i s = .next t) : t.Inv := by
  rcases exec_raises_or_completes h with ⟨r, hr, rfl⟩ | ⟨_, hfault⟩
  · exact raise_inv hs (raises_pc hr) hw
  · obtain ⟨hmem, _, hstack, _⟩ := hs
    have unfaulted : t.fault = none := hfault.trans hf
    exact ⟨exec_mem_wf hmem h, exec_pc_le hstack hpc hf h unfaulted, exec_stack_le hstack hpc h,
      fun r hr => nomatch unfaulted.symm.trans hr⟩

end

/-! ### A cycle, a command, and a step -/

theorem endCycle_inv {s : State} (hs : s.Inv) : s.endCycle.Inv := by
  obtain ⟨hmem, hbound, hstack, hprecise⟩ := hs
  rw [endCycle_eq]
  exact ⟨hmem, hbound, hstack, hprecise⟩

theorem waitingStep_inv {s : State} (hs : s.Inv) (hf : s.fault = none) (x : Reg) : (s.waitingStep x).Inv := by
  obtain ⟨hmem, hbound, hstack, _⟩ := hs
  rw [waitingStep_eq]
  exact ⟨hmem, hbound, hstack, fun r hr => nomatch hf.symm.trans hr⟩

theorem beginCycle_inv {s : State} (hs : s.Inv) : s.beginCycle.Inv := by
  obtain ⟨hmem, hbound, hstack, hprecise⟩ := hs
  exact ⟨hmem, hbound, hstack, hprecise⟩

theorem cycle_inv {s t : State} (hs : s.Inv) (hf : s.fault = none) (h : cycle s = .next t) : t.Inv := by
  have begun := beginCycle_inv hs
  cases htf : t.fault with
  | some r =>
    obtain ⟨hw, rfl, hpc⟩ := cycle_faulting hf h htf
    exact raise_inv begun hpc hw
  | none =>
    rcases cycle_cases h with ⟨x, _, rfl⟩ | ⟨_, r, rfl, _⟩ | ⟨hw, i, u, ⟨hpc, _⟩, hu, rfl⟩
    · exact endCycle_inv (waitingStep_inv begun hf x)
    · cases htf
    · exact endCycle_inv (exec_inv begun hf hw hpc hu)

theorem runCommand_inv {c : HostCommand} {s t : State} (hs : s.Inv) (hf : s.fault = none)
    (h : runCommand c s = .next t) : t.Inv := by
  have ⟨hmem, hbound, hstack, hprecise⟩ := hs
  cases c with
  | start | cpu | mem => cases h; exact ⟨hmem, hbound, hstack, hprecise⟩
  | stop =>
    simp only [runCommand] at h
    split at h
    · cases h; exact ⟨hmem, hbound, hstack, hprecise⟩
    · cases h; exact hs
    · cases h; exact hs
  | step =>
    simp only [runCommand] at h
    split at h
    · cases h; exact hs
    · exact cycle_inv hs hf h
    · exact cycle_inv hs hf h

/-- What a step can be: a command, a cycle, or nothing; and the machine it is a step of has no fault. -/
theorem step_cases {s t : State} (h : step s = .next t) : s.fault = none ∧
    ((∃ c rest, s.pending = c :: rest ∧ runCommand c { s with pending := rest } = .next t) ∨
      (s.pending = [] ∧ s.runState = .running ∧ cycle s = .next t) ∨
      (s.pending = [] ∧ s.runState ≠ .running ∧ t = s)) := by
  have hf : s.fault = none := by
    cases hf : s.fault with
    | none => rfl
    | some r => rw [faultedMachineHasNoStep s r hf] at h; cases h
  refine ⟨hf, ?_⟩
  cases hp : s.pending with
  | cons c rest => exact .inl ⟨c, rest, rfl, by rwa [step_of_command hf hp] at h⟩
  | nil =>
    by_cases hr : s.runState = .running
    · exact .inr (.inl ⟨rfl, hr, by rwa [step_of_cycle hf hp hr] at h⟩)
    · rw [step_of_idle hf hp hr] at h
      cases h
      exact .inr (.inr ⟨rfl, hr, rfl⟩)

/-- Settles O27: a command and a cycle keep the invariant, each part by what may write it. -/
theorem stepKeepsTheInvariant : Obligations.StepKeepsTheInvariant := by
  intro s t hs h
  obtain ⟨hf, ⟨c, rest, _, hc⟩ | ⟨_, _, hcycle⟩ | ⟨_, _, rfl⟩⟩ := step_cases h
  · obtain ⟨hmem, hbound, hstack, hprecise⟩ := hs
    exact runCommand_inv (s := { s with pending := rest }) ⟨hmem, hbound, hstack, hprecise⟩ hf hc
  · exact cycle_inv hs hf hcycle
  · exact hs

/-- Settles O28: by induction on how the state is reached; the host writes no field that the invariant reads. -/
theorem reachableStatesMeetTheInvariant : Obligations.ReachableStatesMeetTheInvariant := by
  intro s hs
  induction hs with
  | construct h => exact inv_of_construct h
  | post _ _ ih | supply _ _ ih =>
    obtain ⟨hmem, hbound, hstack, hprecise⟩ := ih
    exact ⟨hmem, hbound, hstack, hprecise⟩
  | step _ h ih => exact stepKeepsTheInvariant _ _ ih h

end Sys2Proof.Machine
end

section
/-! PROOFS. The commands that read the machine, and the parked machine (spec 60_exceptions.md R255 to R257). -/

namespace Sys2Proof.Machine

/-- Settles O20: the reply is the snapshot of the state that the command finds. -/
theorem cpuCommandCopiesRegisters : Obligations.CpuCommandCopiesRegisters := by
  intro s rest hf hp
  exact ⟨s.cpuSnapshot, step_of_command hf hp, rfl, rfl, rfl, rfl, rfl⟩

theorem memReply_in_bounds {s : State} {a n : Nat} (h : a + n ≤ 4096) :
    s.memReply a n = .mem (s.mem.readBlock a n) := by
  rw [State.memReply, outOfBounds_eq_none.2 (.inr h)]

theorem memReply_out_of_bounds {s : State} {a n : Nat} (hn : n ≠ 0) (h : a + n > 4096) :
    s.memReply a n = .connectionClosed := by
  rw [State.memReply, outOfBounds_eq_some.2 ⟨hn, h, rfl⟩]

/-- Settles O21: the reply is the block read, or the closed connection. -/
theorem memCommandCopiesBytes : Obligations.MemCommandCopiesBytes := by
  intro s rest a n hf hp hn
  have hstep : step s = .next { s with pending := rest, replies := s.replies ++ [s.memReply a n] } :=
    step_of_command hf hp
  refine ⟨fun hin => ?_, fun hout => ?_⟩
  · rw [memReply_in_bounds hin] at hstep
    exact ⟨_, hstep, Memory.readBlock_length s.mem a n, fun k hk => Memory.readBlock_getElem? s.mem hk⟩
  · rw [memReply_out_of_bounds (Nat.ne_of_gt hn) hout] at hstep
    exact hstep

/-- Settles O23: the instruction at `PC` sets `PC` to what it is. -/
theorem parkedMachineStaysParked : Obligations.ParkedMachineStaysParked := by
  intro s hs hparked
  have ⟨hw, hf, hpc, nnn, hword, htarget⟩ := hparked
  have same_pc : zext12 nnn = s.pc := BitVec.eq_of_toNat_eq ((zext12_toNat nnn).trans htarget.symm)
  have jumps : s.Fetches (.jp nnn) := ⟨hpc, by rw [hword, decodeWord_encode rfl]⟩
  have hexec : exec (.jp nnn) s.beginCycle = .next (s.beginCycle.setPc s.pc) := by rw [exec, execJp, same_pc]
  exact ⟨_, step_of_completes hs hw jumps hexec hf, ⟨hw, hf, hpc, nnn, hword, htarget⟩, rfl⟩

end Sys2Proof.Machine
end

section
/-! PROOFS. No instruction reads the sound timer (spec 43_timers.md R181). -/

namespace Sys2Proof.Machine

/-- `t'` is `t` but for the sound timer. -/
def SameButSt (t t' : State) : Prop := t' = { t with st := t'.st }

section
variable (s : State) (b : Byte)

theorem accessAtI_sameButSt (ins : Instr) (kind : AccessKind) (n : Nat) {done done' : State}
    (h : SameButSt done done') :
    SameButSt (s.accessAtI ins kind n done) ({ s with st := b }.accessAtI ins kind n done') := by
  simp only [State.accessAtI]
  cases outOfBounds s.i.toNat n
  · exact h
  · rfl

theorem skipOnKey_sameButSt (ins : Instr) (x : Reg) (down : Bool) :
    SameButSt (s.skipOnKey ins x down) ({ s with st := b }.skipOnKey ins x down) := by
  rcases Nat.lt_or_ge 15 (s.reg x).toNat with hgt | hle
  · rw [skipOnKey_of_gt hgt, skipOnKey_of_gt (s := { s with st := b }) hgt]; rfl
  · rw [skipOnKey_of_le hle, skipOnKey_of_le (s := { s with st := b }) hle]; rfl

theorem loadRegBlock_advance_sameButSt (x : Reg) (a : Nat) :
    SameButSt (s.loadRegBlock x a).advance ({ s with st := b }.loadRegBlock x a).advance := by
  simp only [SameButSt, State.loadRegBlock, State.advance, State.setPc, State.byteAt]

end

/-- Settles O10: the instructions that check something check it alike in both states; every other is one update of fields
that do not depend on `ST`. -/
theorem noInstructionReadsTheSoundTimer : Obligations.NoInstructionReadsTheSoundTimer := by
  intro i s b
  cases i
  case ret =>
    rcases Nat.eq_zero_or_pos s.sp.val with hempty | hpos
    · exact ⟨_, _, exec_ret_of_empty hempty, exec_ret_of_empty (s := { s with st := b }) hempty, rfl⟩
    · exact ⟨_, _, exec_ret_of_pos hpos, exec_ret_of_pos (s := { s with st := b }) hpos, rfl⟩
  case call nnn =>
    rcases Nat.lt_or_ge s.sp.val 16 with hroom | hge
    · exact ⟨_, _, exec_call_of_lt hroom, exec_call_of_lt (s := { s with st := b }) hroom, rfl⟩
    · have hfull : s.sp.val = 16 := by omega
      exact ⟨_, _, exec_call_of_full hfull, exec_call_of_full (s := { s with st := b }) hfull, rfl⟩
  case skp x | sknp x => exact ⟨_, _, rfl, rfl, skipOnKey_sameButSt s b _ x _⟩
  case ldRegMem x =>
    exact ⟨_, _, rfl, rfl, accessAtI_sameButSt s b _ _ _ (loadRegBlock_advance_sameButSt s b x _)⟩
  case drw | ldBcd | ldMemReg => exact ⟨_, _, rfl, rfl, accessAtI_sameButSt s b _ _ _ rfl⟩
  all_goals exact ⟨_, _, rfl, rfl, rfl⟩

end Sys2Proof.Machine
end

section
/-! PROOFS. Two instructions in a row: call and return, store and load, store and fetch, and the same draw twice (spec
20_memory.md R65; 40_control_flow.md R104, R106; 42_index_memory.md R165; 44_display_keypad.md R192). -/

namespace Sys2Proof.Machine

/-- Settles O37: the entry popped is the one just pushed. -/
theorem returnUndoesCall : Obligations.ReturnUndoesCall := by
  intro nnn s hroom
  exact ⟨_, _, exec_call_of_lt hroom, exec_ret_of_pos (Nat.succ_pos _), Vector.getElem_set_self _, rfl, rfl⟩

/-- Settles O50: the load reads at the address the store wrote to, since a store leaves `I`. -/
theorem storeThenLoadRestoresRegisters : Obligations.StoreThenLoadRestoresRegisters := by
  intro x s w hmem hin
  obtain ⟨store, _⟩ := registerBlockStore x s hmem
  obtain ⟨t, ht, stored, _, hframe, _⟩ := store hin
  have same_i : t.i = s.i := by rw [hframe]
  obtain ⟨load, _⟩ := registerBlockLoad x { t with v := w }
  have hin' : t.i.toNat + x.val ≤ 0xFFF := by rwa [same_i]
  obtain ⟨u, hu, loaded, kept, _⟩ := load hin'
  refine ⟨t, u, ht, hu, fun r hr => (loaded r hr).trans ?_, kept⟩
  rw [← stored r hr, ← same_i]
  rfl

/-- Settles O51: both bytes of the word lie in the block stored. -/
theorem storedBytesAreFetched : Obligations.StoredBytesAreFetched := by
  intro x s t pc hmem hin ht h
  obtain ⟨store, _⟩ := registerBlockStore x s hmem
  obtain ⟨t', ht', stored, _⟩ := store hin
  cases ht.symm.trans ht'
  have stored_at {k : Nat} (hlo : s.i.toNat ≤ k) (hhi : k ≤ s.i.toNat + x.val) :
      t.byteAt k = s.reg ⟨k - s.i.toNat, by omega⟩ := by
    have := stored ⟨k - s.i.toNat, by omega⟩ (Nat.sub_le_iff_le_add'.2 hhi)
    rwa [Nat.add_sub_of_le hlo] at this
  refine fetchWord_ok.2 ⟨show pc.toNat ≤ 0xFFE by omega, ?_⟩
  rw [← stored_at (k := pc.toNat) (by omega) (by omega), ← stored_at (k := pc.toNat + 1) (by omega) (by omega)]
  rfl

/-! ### The same draw twice -/

/-- The pixels a sprite covers depend on the edge, the coordinates, and the bytes at `I`. -/
theorem spriteCovers_congr {s t : State} {x y : Reg} (hparams : t.params = s.params) (hi : t.i = s.i)
    (hbytes : ∀ a, t.byteAt a = s.byteAt a) (hx : t.reg x = s.reg x) (hy : t.reg y = s.reg y) (n c q : Nat) :
    t.SpriteCovers x y n c q ↔ s.SpriteCovers x y n c q := by
  simp only [State.SpriteCovers, hparams, hi, hbytes, hx, hy]

/-- Settles O56: the second draw covers the same pixels, each now the opposite of what it was. -/
theorem drawTwiceRestoresTheSurface : Obligations.DrawTwiceRestoresTheSurface := by
  intro x y n s t u hin ht hx hy hu
  have rows_le : n.toNat ≤ 32 := by omega
  rw [exec_drw_in_bounds hin] at ht
  cases ht
  have same_cover :=
    spriteCovers_congr (s := s) (t := (s.drawn x y n.toNat).advance) rfl rfl (fun _ => rfl) hx hy n.toNat
  rw [exec_drw_in_bounds (s := (s.drawn x y n.toNat).advance) hin] at hu
  cases hu
  obtain ⟨toggled, kept, _⟩ := drawSprite_spec s x y rows_le
  obtain ⟨toggled', kept', _⟩ := drawSprite_spec (s.drawn x y n.toNat).advance x y rows_le
  refine ⟨fun c q => ?_, rfl, ?_, ?_⟩
  · by_cases hcover : s.SpriteCovers x y n.toNat c q
    · refine (toggled' q c ((same_cover c q).2 hcover)).trans ?_
      rw [advance_fb, drawn_fb, toggled q c hcover, Bool.not_not]
    · exact (kept' q c (mt (same_cover c q).1 hcover)).trans (kept q c hcover)
  · rintro ⟨c, q, hcover, hoff⟩
    refine drawn_advance_flag_collision _ x y rows_le ⟨c, q, (same_cover c q).2 hcover, ?_⟩
    rw [advance_fb, drawn_fb, toggled q c hcover, hoff, Bool.not_false]
  · intro hon
    refine drawn_advance_flag_noCollision _ x y rows_le fun c q hcover' => ?_
    have hcover := (same_cover c q).1 hcover'
    rw [advance_fb, drawn_fb, toggled q c hcover, hon c q hcover, Bool.not_true]

end Sys2Proof.Machine
end
